-- ==== Sys2Proof/Word.lean ====
section
/-! DEFINITION. The widths of the block's values (00_scope R13: u8, u16, u32, all unsigned). -/

namespace Sys2Proof

/-- A u8 (R13). -/
abbrev Byte := BitVec 8

/-- A u16: a payload length, a CRC, a descriptor's size (R13). -/
abbrev Half := BitVec 16

/-- A u32 address of target memory (R16, R40). -/
abbrev Addr := BitVec 32

/-- The name of a byte-emission capability (R31). The block reads no property of a capability, so a name
that tells two of them apart is all the model holds. DESIGN CHOICE (log 6): a 32-bit name. -/
abbrev Emitter := BitVec 32

end Sys2Proof
end

