-- ==== Sys2Proof/Config.lean ====
section
/-! DEFINITION. The build-time parameters of one engine (00_scope R9), the capacities derived from them
(R12), and the spec's reference configuration RC (R11). No rule of the model hard-codes a value of RC:
every meaning takes the parameters from the state it runs on. -/

namespace Sys2Proof

/-- A range of target addresses `base .. base + size - 1`. -/
structure Region where
  base : Nat
  size : Nat
  deriving DecidableEq, Repr

/-- The parameters of R9. `regions` is the parameter `Mapped : u32 → Bool` written as data: the addresses
the memory accessor serves are those of its ranges (every predicate on u32 is such a list). -/
structure Params where
  startMarker    : Byte
  cmdRead        : Byte
  cmdWrite       : Byte
  cmdPing        : Byte
  cmdReadResp    : Byte
  cmdWriteResp   : Byte
  cmdPong        : Byte
  cmdError       : Byte
  errOk          : Byte
  errCrc         : Byte
  errInvalidAddr : Byte
  errInvalidSize : Byte
  errUnknownCmd  : Byte
  maxPayload     : Nat
  maxVars        : Nat
  version        : List Byte
  regions        : List Region
  deriving DecidableEq, Repr

/-- `RXCAP = 7 + MAX_PAYLOAD` (R12). -/
def Params.rxCap (p : Params) : Nat := 7 + p.maxPayload

/-- `TXCAP = 7 + MAX_PAYLOAD` (R12). -/
def Params.txCap (p : Params) : Nat := 7 + p.maxPayload

/-- The reference configuration RC (R11). It is the spec's own, for test vectors; it is not the
repository's. VERSION is used by no vector, and is empty here (log 1). -/
def Params.rc : Params where
  startMarker    := 0xAA
  cmdRead        := 0x01
  cmdWrite       := 0x02
  cmdPing        := 0x03
  cmdReadResp    := 0x81
  cmdWriteResp   := 0x82
  cmdPong        := 0x83
  cmdError       := 0xFF
  errOk          := 0x00
  errCrc         := 0x01
  errInvalidAddr := 0x02
  errInvalidSize := 0x03
  errUnknownCmd  := 0x04
  maxPayload     := 128
  maxVars        := 10
  version        := []
  regions        := [⟨0, 2 ^ 32⟩]

end Sys2Proof
end

