-- ==== Sys2Proof/Syntax.lean ====
section
/-! DEFINITION. The operations of the block: one constructor per row of spec/opcode_table.json
(30_encoding R77). An operation's operands are what the row and its rule name. -/

namespace Sys2Proof

/-- The four command codes the block puts in a frame it sends (R71, R72, R165). -/
inductive RespCode where
  | readResp
  | writeResp
  | pong
  | error
  deriving DecidableEq, Repr

/-- The three codes an error frame may carry (R127: "The codes used are exactly"). -/
inductive ErrCode where
  | crc
  | invalidSize
  | unknownCmd
  deriving DecidableEq, Repr

/-- A variable descriptor: its four fields, all unsigned (R65). -/
structure Desc where
  addr      : Addr
  size      : Half
  bitOffset : Byte
  bitSize   : Byte
  deriving DecidableEq, Repr

/-- One operation of the block. The first five are the entry points the environment calls (R185); the others
run inside an RX event that completes a frame. -/
inductive Instr where
  /-- INIT: initialize(emitter) (R230). -/
  | init (emitter : Emitter)
  /-- RX: notify-byte-received(b) (R100). -/
  | rx (b : Byte)
  /-- TXSLOT: notify-transmit-slot-available() (R166). -/
  | txslot
  /-- BUSY?: query-transmitter-busy() (R188). -/
  | busy
  /-- VERSION?: get-version() (R186). -/
  | version
  /-- DISPATCH: the completed frame stands in `rx.buf` (R120). -/
  | dispatch
  /-- READ: a request frame's sequence byte and payload `P` (R137). -/
  | read (seq : Byte) (payload : List Byte)
  /-- READ.FULL: a descriptor with bit_offset 0xFF (R139); `n` is the response payload length so far. -/
  | readFull (seq : Byte) (n : Nat) (addr : Addr) (size : Half) (bitSize : Byte)
  /-- READ.BIT: a descriptor with another bit_offset (R140); `n` is the response payload length so far. -/
  | readBit (seq : Byte) (n : Nat) (addr : Addr) (size : Half) (bitOffset bitSize : Byte)
  /-- WRITE: a request frame's sequence byte and payload `P` (R145). -/
  | write (seq : Byte) (payload : List Byte)
  /-- WRITE.FULL: a descriptor with bit_offset 0xFF (R147); `rest` is the payload after it, `P[pos .. L)`. -/
  | writeFull (seq : Byte) (addr : Addr) (size : Half) (bitSize : Byte) (rest : List Byte)
  /-- WRITE.BIT: a descriptor with another bit_offset (R148); `rest` is the payload after it, `P[pos .. L)`. -/
  | writeBit (seq : Byte) (addr : Addr) (size : Half) (bitOffset bitSize : Byte) (rest : List Byte)
  /-- PING (R125): the payload is ignored. -/
  | ping (seq : Byte) (payload : List Byte)
  /-- UNKNOWN (R126): any other command byte. -/
  | unknown (cmd seq : Byte) (payload : List Byte)
  /-- CRC16 of a byte string (R90). -/
  | crc16 (s : List Byte)
  /-- ENCODE: Encode(cmd, seq, n) over the payload staged at `tx.buf[5 .. 5+n)` (R165). -/
  | encode (cmd : RespCode) (seq : Byte) (n : Nat)
  /-- READ_RESP: the read response `[count] ++ values` (R142). -/
  | readResp (seq count : Byte) (values : List Byte)
  /-- WRITE_RESP: the write response `[ERR_OK]` (R150). -/
  | writeResp (seq : Byte)
  /-- PONG: the empty pong (R125). -/
  | pong (seq : Byte)
  /-- ERROR: the error frame `[code]` (R127). -/
  | error (code : ErrCode) (seq : Byte)
  deriving DecidableEq, Repr

end Sys2Proof
end

