-- ==== Sys2Proof/Machine/State.lean ====
section
/-! DEFINITION. The state of one engine and of the agents around it (10_state R20, 00_scope R8), as plain data;
why a step can stop; the updates of the state's fields; the state after reset (R36). -/

namespace Sys2Proof.Machine

open Sys2Proof

/-- The receiver's states (R21). -/
inductive RxState where
  | idle
  | lenLow
  | lenHigh
  | command
  | sequence
  | payload
  | crcLow
  | crcHigh
  deriving DecidableEq, Repr

/-- The transmitter's states (R25). -/
inductive TxState where
  | idle
  | sending
  deriving DecidableEq, Repr

/-- A frame buffer: one cell per byte of its capacity; `none` is an unwritten cell (R35, R36: "It treats them as
unwritten cells, and reading one is a fault"). -/
abbrev Buf := List (Option Byte)

/-- A buffer of `cap` unwritten cells (R36). -/
def blankBuf (cap : Nat) : Buf := List.replicate cap none

/-- Target memory: (address, byte) pairs, addresses strictly rising, no entry equal to what an unlisted address
reads as (R40). -/
abbrev Memory := List Host.Cell

/-- The Receive Context (R21-R24). -/
structure RxCtx where
  state : RxState
  buf   : Buf
  len   : Half
  idx   : Half
  deriving DecidableEq, Repr

/-- The Transmit Context (R25-R28). `len` and `idx` are naturals (R27, 90_conflicts C6). -/
structure TxCtx where
  state : TxState
  buf   : Buf
  len   : Nat
  idx   : Nat
  deriving DecidableEq, Repr

/-- The faults a rule records in `fault` (R33, R203). -/
inductive FaultKind where
  /-- A MemRead or MemWrite named an address the memory accessor does not serve (R49). -/
  | memUnmapped
  /-- A frame completed while the transmitter was sending (R120). -/
  | txOverrun
  deriving DecidableEq, Repr

/-- One store of the target program (R51). -/
structure TargetStore where
  addr : Addr
  val  : Byte
  deriving DecidableEq, Repr

/-- What a run shows (R41, R191). -/
inductive Obs where
  /-- `Emit(b)`, through the capability the block holds (R31, R187). -/
  | emit (via : Emitter) (b : Byte)
  /-- `(R, a, value-returned)` (R41). -/
  | memRead (a : Addr) (v : Byte)
  /-- `(W, a, v)` (R41). -/
  | memWrite (a : Addr) (v : Byte)
  /-- The result of BUSY? (R188). -/
  | busy (result : Bool)
  /-- The result of VERSION? (R186). -/
  | version (result : List Byte)
  /-- The result of a CRC16 that was called on its own (R90, log 7). -/
  | crc (result : Half)
  deriving DecidableEq, Repr

/-- One engine with its parameters, the target memory it reaches, and the agents around it. -/
structure State where
  /-- The build-time parameters of this engine; no event writes them (R30). -/
  cfg     : Params
  /-- The Receive Context. -/
  rx      : RxCtx
  /-- The Transmit Context. -/
  tx      : TxCtx
  /-- The byte-emission capability (R31). -/
  emitter : Emitter
  /-- Whether initialize has been called (R32). -/
  init    : Bool
  /-- The fault raised, if any (R33). -/
  fault   : Option FaultKind
  /-- Target memory (R40). -/
  mem     : Memory
  /-- The environment: the deliveries to come, oldest first, in the order it chose (R7, R206, log 4). -/
  pending : List Instr
  /-- The target program: its stores before each of the block's coming accesses (R51, log 5). -/
  target  : List (List TargetStore)
  /-- What the run has shown so far, oldest first (R191). -/
  trace   : List Obs
  deriving DecidableEq, Repr

/-- Why the machine stops. -/
inductive Fault where
  /-- Every delivery to a block whose `fault` is set: it has no step (R203). Safe: the run is ruled out of every claim. -/
  | stuck (kind : FaultKind)
  /-- A read of a receive or transmit buffer cell that holds no value (R35). Raised by any operation that reads a
  buffer; no state a run reaches raises it (R110). Safe. -/
  | unwrittenCell
  /-- A write past the capacity of a buffer (R22, R26). Raised by any operation that writes a buffer; no state a run
  reaches raises it (R106, R141). Safe. -/
  | outsideBuffer
  /-- A read past the end of a payload: "A payload field past `L` does not exist" (R67). Raised by the READ
  descriptor loop, whose length check rules it out (R137). Safe. -/
  | payloadBounds
  deriving DecidableEq, Repr

/-- Why the model gives a delivery no meaning. -/
inductive Refusal where
  /-- An operation without a meaning yet. Raised by no arm of this model. Safe. -/
  | notModelled (mnemonic : String)
  /-- An entry point other than initialize before the first initialize (R204 (a), R234), and, by the model's choice (log 14),
  an internal operation other than CRC16 delivered on its own before it. Raised by `whenRunning`. Safe. -/
  | notInitialised
  /-- The parameters break R10 (R204 (b)). Safe. -/
  | badConfiguration
  /-- A delivery whose operands no rule of the block can give the operation (log 8). Raised by `step`. Safe. -/
  | illFormed
  deriving DecidableEq, Repr

/-! ### Updates of the fields, one each -/

/-- `s` with the Receive Context `r`. -/
def State.withRx (s : State) (r : RxCtx) : State := { s with rx := r }

/-- `s` with the Transmit Context `t`. -/
def State.withTx (s : State) (t : TxCtx) : State := { s with tx := t }

/-- `s` with the target memory `m`. -/
def State.withMem (s : State) (m : Memory) : State := { s with mem := m }

/-- `s` with the coming stores of the target program `ts`. -/
def State.withTarget (s : State) (ts : List (List TargetStore)) : State := { s with target := ts }

/-- `s` with the coming deliveries `q`. -/
def State.withPending (s : State) (q : List Instr) : State := { s with pending := q }

/-- `s` after showing `o`. -/
def State.observe (s : State) (o : Obs) : State := { s with trace := s.trace ++ [o] }

/-- `s` with the fault `k` recorded (R203). -/
def State.raised (s : State) (k : FaultKind) : State := { s with fault := some k }

/-- The Receive Context that initialize leaves (R36). -/
def RxCtx.reset (p : Params) : RxCtx := ⟨.idle, blankBuf p.rxCap, 0, 0⟩

/-- The Transmit Context that initialize leaves (R36). -/
def TxCtx.reset (p : Params) : TxCtx := ⟨.idle, blankBuf p.txCap, 0, 0⟩

/-- A block with parameters `p` right after `initialize(e)` (R36), nothing pending, no other agent writing, and
target memory listing nothing. -/
def State.resetWith (p : Params) (e : Emitter) : State where
  cfg := p
  rx := RxCtx.reset p
  tx := TxCtx.reset p
  emitter := e
  init := true
  fault := none
  mem := []
  pending := []
  target := []
  trace := []

/-- The machine right after reset (R36). The parameters are RC's and the capability is named 0: both are the
model's choice (log 1, log 2); `State.resetWith` ranges over all of them. -/
def State.reset : State := .resetWith .rc 0

end Sys2Proof.Machine
end

