-- ==== Sys2Proof/Machine/Flags.lean ====
section
/-! DEFINITION. The one status flag (10_state R29) and the state predicates of a run (45_entry_points R191). -/

namespace Sys2Proof.Machine

/-- The transmitter-busy flag: `busy = (tx.state == Sending)`; it is no register of its own (R29). -/
def State.isBusy (s : State) : Bool := decide (s.tx.state = .sending)

/-- Quiescent: no frame partly received and nothing in flight, and no fault (R191). -/
def State.quiescent (s : State) : Bool :=
  decide (s.rx.state = .idle) && decide (s.tx.state = .idle) && decide (s.fault = none)

end Sys2Proof.Machine
end

