-- ==== Sys2Proof/Machine/Bytes.lean ====
section
/-! DEFINITION. Byte order (00_scope R15, 20_memory R43), the CRC16-CCITT generator (40_crc) and the frame of
30_encoding R60, which both directions share; the configuration check of R10 and the predicate `Mapped` of R9. -/

namespace Sys2Proof

/-- `lo8(v) = v & 0xFF` (R15). -/
def lo8 (v : Nat) : Byte := BitVec.ofNat 8 v

/-- `hi8(v) = (v >> 8) & 0xFF` (R15). -/
def hi8 (v : Nat) : Byte := BitVec.ofNat 8 (v >>> 8)

/-- `le16(lo, hi) = lo | (hi << 8)` (R15). -/
def le16 (lo hi : Byte) : Half := lo.setWidth 16 ||| (hi.setWidth 16 <<< 8)

/-- `le32(b0, b1, b2, b3)` (R15). -/
def le32 (b0 b1 b2 b3 : Byte) : Addr :=
  b0.setWidth 32 ||| (b1.setWidth 32 <<< 8) ||| (b2.setWidth 32 <<< 16) ||| (b3.setWidth 32 <<< 24)

/-- The four bytes of a u32, least significant first (R43). -/
def bytes32 (a : BitVec 32) : List Byte :=
  [a.setWidth 8, (a >>> 8).setWidth 8, (a >>> 16).setWidth 8, (a >>> 24).setWidth 8]

/-- The two bytes of a number below 2^16, least significant first (R43). -/
def bytes16 (v : Nat) : List Byte := [lo8 v, hi8 v]

/-- One of the eight steps of R90: shift left, and XOR the polynomial when bit 15 was 1. -/
def crcShift (c : Half) : Half := if c.getLsbD 15 then (c <<< 1) ^^^ 0x1021 else c <<< 1

/-- `CRC16_step(c, b)`: one iteration of the outer loop of R90 (R92). -/
def crcByte (c : Half) (b : Byte) : Half := Nat.repeat crcShift 8 (c ^^^ (b.setWidth 16 <<< 8))

/-- `CRC16(s)`: initial value 0xFFFF, no reflection, no final XOR (R90). -/
def crc16 (s : List Byte) : Half := s.foldl crcByte 0xFFFF

/-- The bytes a frame's CRC covers, marker through payload (R60, R63). -/
def frameBody (p : Params) (cmd seq : Byte) (payload : List Byte) : List Byte :=
  [p.startMarker, lo8 payload.length, hi8 payload.length, cmd, seq] ++ payload

/-- A whole frame: the body, then its CRC low byte first (R60, R62). -/
def frameBytes (p : Params) (cmd seq : Byte) (payload : List Byte) : List Byte :=
  frameBody p cmd seq payload ++ bytes16 (crc16 (frameBody p cmd seq payload)).toNat

/-- The command byte of a response (R71, R72). -/
def Params.respByte (p : Params) : RespCode → Byte
  | .readResp => p.cmdReadResp
  | .writeResp => p.cmdWriteResp
  | .pong => p.cmdPong
  | .error => p.cmdError

/-- The payload byte of an error frame (R73, R127). -/
def Params.errByte (p : Params) : ErrCode → Byte
  | .crc => p.errCrc
  | .invalidSize => p.errInvalidSize
  | .unknownCmd => p.errUnknownCmd

/-! ### Configuration (R9, R10) -/

/-- The seven command codes. -/
def Params.commands (p : Params) : List Byte :=
  [p.cmdRead, p.cmdWrite, p.cmdPing, p.cmdReadResp, p.cmdWriteResp, p.cmdError, p.cmdPong]

/-- The five status and error codes. -/
def Params.codes (p : Params) : List Byte :=
  [p.errOk, p.errCrc, p.errInvalidAddr, p.errInvalidSize, p.errUnknownCmd]

/-- The constraints of R10. -/
def Params.ok (p : Params) : Bool :=
  decide (p.commands).Nodup && decide (p.codes).Nodup && decide (1 ≤ p.maxPayload)
    && decide (p.maxPayload ≤ 65535) && decide (1 ≤ p.maxVars) && decide (p.maxVars ≤ 255)

/-- `Mapped(a)`: the memory accessor serves the address (R9, R49). -/
def Params.serves (p : Params) (a : Addr) : Bool :=
  p.regions.any fun r => decide (r.base ≤ a.toNat) && decide (a.toNat < r.base + r.size)

end Sys2Proof
end

