-- ==== Sys2Proof/WellFormed.lean ====
section
/-! DEFINITION. The operands an operation can have in a block with parameters `p`: the payload fits a frame
(30_encoding R61), the command byte and the descriptor are of the row's kind (R66, R74), and a response
payload length is within the capacity (44_transmitter R165). -/

namespace Sys2Proof

/-- `P` is the payload of a well-formed frame (R61). -/
def Params.payloadFits (p : Params) (payload : List Byte) : Bool := decide (payload.length ≤ p.maxPayload)

/-- The operands are ones the block's own rules can give the operation. -/
def Instr.wf (p : Params) : Instr → Bool
  | .init _ => true
  | .rx _ => true
  | .txslot => true
  | .busy => true
  | .version => true
  | .dispatch => true
  | .read _ payload => p.payloadFits payload
  | .readFull _ n _ _ _ => decide (1 ≤ n) && decide (n ≤ p.maxPayload)
  | .readBit _ n _ _ off _ => decide (1 ≤ n) && decide (n ≤ p.maxPayload) && decide (off ≠ 0xFF)
  | .write _ payload => p.payloadFits payload
  | .writeFull _ _ _ _ rest => p.payloadFits rest
  | .writeBit _ _ _ off _ rest => p.payloadFits rest && decide (off ≠ 0xFF)
  | .ping _ payload => p.payloadFits payload
  | .unknown cmd _ payload =>
      p.payloadFits payload && decide (cmd ≠ p.cmdRead) && decide (cmd ≠ p.cmdWrite) && decide (cmd ≠ p.cmdPing)
  | .crc16 _ => true
  | .encode _ _ n => decide (n ≤ p.maxPayload)
  | .readResp _ _ values => decide (1 + values.length ≤ p.maxPayload)
  | .writeResp _ => true
  | .pong _ => true
  | .error _ _ => true

/-- The five entry points: what the environment of R185 can deliver. -/
def Instr.isEntry : Instr → Bool
  | .init _ | .rx _ | .txslot | .busy | .version => true
  | .dispatch | .read _ _ | .readFull _ _ _ _ _ | .readBit _ _ _ _ _ _ | .write _ _ | .writeFull _ _ _ _ _
  | .writeBit _ _ _ _ _ _ | .ping _ _ | .unknown _ _ _ | .crc16 _ | .encode _ _ _ | .readResp _ _ _
  | .writeResp _ | .pong _ | .error _ _ => false

end Sys2Proof
end

