-- ==== Sys2Proof/Decode.lean ====
section
/-! DEFINITION. What the block and its peer read from bytes: the variable descriptor (30_encoding R65, R66), the
command byte (R74), the frame (R60-R63), the response payloads (R71). `decode` reads one delivery on the model's
port: a selector byte that says which of R77's kinds of operation follows, then the operation's bytes in the spec's
own encoding. The spec fixes no signals for an entry point (45_entry_points R185), so the selector bytes are a DESIGN
CHOICE (log 11, safe: no step of the machine reads them). `encode` is the other direction. -/

namespace Sys2Proof

/-- Why some bytes are no delivery. -/
inductive DecodeError where
  /-- The delivery is empty. -/
  | empty
  /-- No kind of operation has this selector. -/
  | unknownSelector (b : Byte)
  /-- The operands are too short or too long for the operation. -/
  | wrongLength
  /-- A frame's first byte is not START_MARKER (R60). -/
  | badMarker
  /-- A frame declares more than MAX_PAYLOAD payload bytes (R61, R75 (d)). -/
  | oversize
  /-- A frame's length is not 7 + L (R60). -/
  | lengthMismatch
  /-- A frame's CRC field is not the CRC of the bytes before it (R62, R63). -/
  | badCrc
  /-- A command byte that no response carries (R71). -/
  | notResponse (cmd : Byte)
  /-- A response whose payload is not the one R71 gives it. -/
  | badPayload
  /-- An error frame with a code no rule emits, ERR_INVALID_ADDR among them (R75 (b), R127). -/
  | badErrCode (code : Byte)
  deriving DecidableEq, Repr

/-! ### Descriptors (R65, R66) -/

/-- `ParseDesc` at the head of the payload bytes that remain (43_memory_access R135): the descriptor and the bytes
after it, or none where fewer than 8 bytes remain (R146). -/
def parseDesc : List Byte → Option (Desc × List Byte)
  | a0 :: a1 :: a2 :: a3 :: s0 :: s1 :: off :: w :: rest => some (⟨le32 a0 a1 a2 a3, le16 s0 s1, off, w⟩, rest)
  | _ => none

/-- The 8 bytes of a descriptor (R65). -/
def descBytes (d : Desc) : List Byte := bytes32 d.addr ++ bytes16 d.size.toNat ++ [d.bitOffset, d.bitSize]

/-- `bit_offset == 0xFF`: kind FULL; every other value is kind BITFIELD (R66). -/
def descIsFull (d : Desc) : Bool := d.bitOffset == 0xFF

/-! ### The command byte (R74) -/

/-- What a received command byte selects (R74). -/
inductive Command where
  | read
  | write
  | ping
  | unknown
  deriving DecidableEq, Repr

/-- R74, in the spec's order. -/
def decodeCommand (p : Params) (c : Byte) : Command :=
  if c = p.cmdRead then .read else if c = p.cmdWrite then .write else if c = p.cmdPing then .ping else .unknown

/-- The operation a request frame with command byte `cmd` asks for. -/
def requestInstr (p : Params) (cmd seq : Byte) (payload : List Byte) : Instr :=
  match decodeCommand p cmd with
  | .read => .read seq payload
  | .write => .write seq payload
  | .ping => .ping seq payload
  | .unknown => .unknown cmd seq payload

/-! ### Frames (R60-R64) -/

/-- The fields of a frame between its marker and its CRC. -/
structure RawFrame where
  cmd     : Byte
  seq     : Byte
  payload : List Byte
  deriving DecidableEq, Repr

/-- Reads one whole frame: marker, little-endian length, command, sequence, payload, CRC (R60). -/
def decodeFrame (p : Params) : List Byte → Except DecodeError RawFrame
  | m :: l0 :: l1 :: cmd :: seq :: rest =>
    if m ≠ p.startMarker then .error .badMarker
    else if p.maxPayload < (le16 l0 l1).toNat then .error .oversize
    else if rest.length ≠ (le16 l0 l1).toNat + 2 then .error .lengthMismatch
    else match rest.drop (le16 l0 l1).toNat with
      | [lo, hi] =>
        if le16 lo hi = crc16 (m :: l0 :: l1 :: cmd :: seq :: rest.take (le16 l0 l1).toNat) then
          .ok ⟨cmd, seq, rest.take (le16 l0 l1).toNat⟩
        else .error .badCrc
      | _ => .error .lengthMismatch
  | _ => .error .wrongLength

/-- The response a frame the block sends carries (R71). -/
def responseInstr (p : Params) (f : RawFrame) : Except DecodeError Instr :=
  if f.cmd = p.cmdReadResp then
    match f.payload with
    | count :: values => .ok (.readResp f.seq count values)
    | [] => .error .badPayload
  else if f.cmd = p.cmdWriteResp then
    if f.payload = [p.errOk] then .ok (.writeResp f.seq) else .error .badPayload
  else if f.cmd = p.cmdPong then
    if f.payload = [] then .ok (.pong f.seq) else .error .badPayload
  else if f.cmd = p.cmdError then
    match f.payload with
    | [code] =>
      if code = p.errCrc then .ok (.error .crc f.seq)
      else if code = p.errInvalidSize then .ok (.error .invalidSize f.seq)
      else if code = p.errUnknownCmd then .ok (.error .unknownCmd f.seq)
      else .error (.badErrCode code)
    | _ => .error .badPayload
  else .error (.notResponse f.cmd)

/-- The response code a command byte stands for (R72). -/
def decodeResp (p : Params) (cmd : Byte) : Except DecodeError RespCode :=
  if cmd = p.cmdReadResp then .ok .readResp
  else if cmd = p.cmdWriteResp then .ok .writeResp
  else if cmd = p.cmdPong then .ok .pong
  else if cmd = p.cmdError then .ok .error
  else .error (.notResponse cmd)

/-! ### Deliveries -/

/-- The operands of ENCODE: command byte, sequence byte, payload length (R165). -/
def decodeEncode (p : Params) : List Byte → Except DecodeError Instr
  | [cmd, seq, l0, l1] =>
    match decodeResp p cmd with
    | .ok c => .ok (.encode c seq (le16 l0 l1).toNat)
    | .error e => .error e
  | _ => .error .wrongLength

/-- A request frame (R60), read as R74 reads its command byte. -/
def decodeRequest (p : Params) (body : List Byte) : Except DecodeError Instr :=
  match decodeFrame p body with
  | .ok f => .ok (requestInstr p f.cmd f.seq f.payload)
  | .error e => .error e

/-- A response frame (R60, R71). -/
def decodeResponse (p : Params) (body : List Byte) : Except DecodeError Instr :=
  match decodeFrame p body with
  | .ok f => responseInstr p f
  | .error e => .error e

/-- A READ descriptor (R65, R66) after its context: the sequence byte and the response length so far. -/
def decodeReadDesc : List Byte → Except DecodeError Instr
  | seq :: n0 :: n1 :: body =>
    match parseDesc body with
    | some (d, []) =>
      if descIsFull d then .ok (.readFull seq (le16 n0 n1).toNat d.addr d.size d.bitSize)
      else .ok (.readBit seq (le16 n0 n1).toNat d.addr d.size d.bitOffset d.bitSize)
    | _ => .error .wrongLength
  | _ => .error .wrongLength

/-- A WRITE element (R69) after its context, the sequence byte: descriptor, then the payload that remains. -/
def decodeWriteElem : List Byte → Except DecodeError Instr
  | seq :: body =>
    match parseDesc body with
    | some (d, rest) =>
      if descIsFull d then .ok (.writeFull seq d.addr d.size d.bitSize rest)
      else .ok (.writeBit seq d.addr d.size d.bitOffset d.bitSize rest)
    | none => .error .wrongLength
  | _ => .error .wrongLength

/-- The operands of INIT: the capability's name. -/
def decodeInit : List Byte → Except DecodeError Instr
  | [e0, e1, e2, e3] => .ok (.init (le32 e0 e1 e2 e3))
  | _ => .error .wrongLength

/-- The operand of RX. -/
def decodeRx : List Byte → Except DecodeError Instr
  | [b] => .ok (.rx b)
  | _ => .error .wrongLength

/-- An operation without operands. -/
def decodeBare (i : Instr) : List Byte → Except DecodeError Instr
  | [] => .ok i
  | _ => .error .wrongLength

/-- Reads one delivery; every list of bytes is read or rejected by name. -/
def decode (p : Params) : List Byte → Except DecodeError Instr
  | [] => .error .empty
  | sel :: body =>
    match sel.toNat with
    | 0 => decodeInit body
    | 1 => decodeRx body
    | 2 => decodeBare .txslot body
    | 3 => decodeBare .busy body
    | 4 => decodeBare .version body
    | 5 => decodeBare .dispatch body
    | 6 => .ok (.crc16 body)
    | 7 => decodeEncode p body
    | 8 => decodeRequest p body
    | 9 => decodeResponse p body
    | 10 => decodeReadDesc body
    | 11 => decodeWriteElem body
    | _ => .error (.unknownSelector sel)

/-- The bytes of a delivery of `i`: the selector, then the operation's own encoding (R60, R65, R68-R71). -/
def encode (p : Params) : Instr → List Byte
  | .init e => 0 :: bytes32 e
  | .rx b => [1, b]
  | .txslot => [2]
  | .busy => [3]
  | .version => [4]
  | .dispatch => [5]
  | .crc16 s => 6 :: s
  | .encode c seq n => [7, p.respByte c, seq] ++ bytes16 n
  | .read seq payload => 8 :: frameBytes p p.cmdRead seq payload
  | .write seq payload => 8 :: frameBytes p p.cmdWrite seq payload
  | .ping seq payload => 8 :: frameBytes p p.cmdPing seq payload
  | .unknown cmd seq payload => 8 :: frameBytes p cmd seq payload
  | .readResp seq count values => 9 :: frameBytes p p.cmdReadResp seq (count :: values)
  | .writeResp seq => 9 :: frameBytes p p.cmdWriteResp seq [p.errOk]
  | .pong seq => 9 :: frameBytes p p.cmdPong seq []
  | .error code seq => 9 :: frameBytes p p.cmdError seq [p.errByte code]
  | .readFull seq n a size w => [10, seq] ++ bytes16 n ++ descBytes ⟨a, size, 0xFF, w⟩
  | .readBit seq n a size off w => [10, seq] ++ bytes16 n ++ descBytes ⟨a, size, off, w⟩
  | .writeFull seq a size w rest => [11, seq] ++ descBytes ⟨a, size, 0xFF, w⟩ ++ rest
  | .writeBit seq a size off w rest => [11, seq] ++ descBytes ⟨a, size, off, w⟩ ++ rest

/-! ### The opcode table's words -/

/-- The first `n` bytes of the number `w`, the least significant first. -/
def wordBytes : Nat → Nat → List Byte
  | 0, _ => []
  | n + 1, w => lo8 w :: wordBytes n (w >>> 8)

/-- Decodes `bs` followed by as few zero bytes, at most `fuel`, as make it a delivery. -/
def decodePadded (p : Params) : Nat → List Byte → Option Instr
  | 0, bs => (decode p bs).toOption
  | fuel + 1, bs =>
    match decode p bs with
    | .ok i => some i
    | .error _ => decodePadded p fuel (bs ++ [0])

/-- The operation read from a table word: its bytes, the first at the least significant end, read as a delivery of a
block with the configuration RC (the one for which the table gives `rc_match` values). The table gives its rows no bits. -/
def decodeTableWord (nbits w : Nat) : Option Instr := decodePadded .rc 16 (wordBytes ((nbits + 7) / 8) w)

end Sys2Proof
end

