-- ==== Sys2Proof/Machine/Ops.lean ====
section
/-! DEFINITION. The named operations the meanings are written with: how an operation goes on, halts or stops; the
guards of every event; raising a model fault (60_exceptions R203) and the stuck state after it; target memory
(20_memory); the cells of the two frame buffers (10_state R22, R26, R35); Emit (45_entry_points R187). -/

namespace Sys2Proof.Machine

open Sys2Proof

/-! ### How an operation ends -/

/-- The result of a step inside an event: it goes on with a value; it halts, because a fault was recorded and the event
ends there with its effects standing (R203); or it stops the machine. -/
inductive Res (α : Type) where
  | done (a : α) (s : State)
  | halt (s : State)
  | stop (f : Fault)
  deriving DecidableEq, Repr

/-- Goes on with `k` unless the event has ended. -/
def Res.andThen {α β : Type} (r : Res α) (k : α → State → Res β) : Res β :=
  match r with
  | .done a s => k a s
  | .halt s => .halt s
  | .stop f => .stop f

/-- How an event ends: with the state it leaves, a recorded fault included, or stopped. -/
def Res.outcome {α : Type} (r : Res α) : Host.Outcome State Fault Refusal :=
  match r with
  | .done _ s => .next s
  | .halt s => .next s
  | .stop f => .fault f

/-! ### Guards of an event -/

/-- A faulted block has no step (R203), and a configuration that breaks R10 is refused (R204 (b)). The spec says both of
events; for an operation delivered on its own that is no event they are a DESIGN CHOICE (log 14). -/
def whenReady (s : State) (k : State → Host.Outcome State Fault Refusal) : Host.Outcome State Fault Refusal :=
  match s.fault with
  | some kind => .fault (.stuck kind)
  | none => if s.cfg.ok then k s else .refused .badConfiguration

/-- The preconditions of every event but initialize: those of `whenReady`, and `init = true` (R100, R234). That an operation
delivered on its own that is no entry point has them too is a DESIGN CHOICE (log 14). -/
def whenRunning (s : State) (k : State → Host.Outcome State Fault Refusal) : Host.Outcome State Fault Refusal :=
  whenReady s fun s => if s.init then k s else .refused .notInitialised

/-! ### Raising a model fault (R203) -/

/-- `raise Fault(kind)`: records the kind and ends the event here; what the event did before stands. -/
def raise {α : Type} (kind : FaultKind) (s : State) : Res α := .halt (s.raised kind)

/-- A response may not be staged while the transmitter is busy (R120, R165 "Precondition", R240). R120 makes this check once, in
DISPATCH; that an operation delivered on its own makes it too is a DESIGN CHOICE (log 12). -/
def requireIdle {α : Type} (s : State) (k : State → Res α) : Res α :=
  match s.tx.state with
  | .sending => raise .txOverrun s
  | .idle => k s

/-! ### Target memory (20_memory) -/

/-- What a byte of target memory that nothing has written reads as. DESIGN CHOICE (log 3): the spec gives no contents. -/
def blankByte : Byte := 0

/-- The byte at address `a`. -/
def Memory.read : Memory → Nat → Byte
  | [], _ => blankByte
  | (k, w) :: rest, a => if a = k then w else Memory.read rest a

/-- Memory with byte `v` at address `a`, in canonical form. -/
def Memory.write : Memory → Nat → Byte → Memory
  | [], a, v => if v = blankByte then [] else [(a, v)]
  | (k, w) :: rest, a, v =>
    if a < k then (if v = blankByte then (k, w) :: rest else (a, v) :: (k, w) :: rest)
    else if a = k then (if v = blankByte then rest else (a, v) :: rest)
    else (k, w) :: Memory.write rest a v

/-- The canonical form from address `lo` on. -/
def Memory.wfFrom (lo : Nat) : Memory → Bool
  | [] => true
  | (k, w) :: rest => decide (lo ≤ k) && decide (k < 2 ^ 32) && decide (w ≠ blankByte) && Memory.wfFrom (k + 1) rest

/-- The canonical form: addresses strictly rising and below 2^32, no entry equal to what an unlisted address reads as. -/
def Memory.wf (m : Memory) : Bool := Memory.wfFrom 0 m

/-- The stores of one turn of the target program, in order. -/
def storeAll (m : Memory) (stores : List TargetStore) : Memory :=
  stores.foldl (fun m st => Memory.write m st.addr.toNat st.val) m

/-- The target program's turn before one of the block's accesses (R51: "a concurrent target write is modelled as an
environment draw between any two block accesses", D16). -/
def targetTurn (s : State) : State :=
  match s.target with
  | [] => s
  | stores :: later => (s.withMem (storeAll s.mem stores)).withTarget later

/-- `MemRead(a, 1)` (R41, R49, R51). -/
def memRead (a : Addr) (s : State) : Res Byte :=
  if s.cfg.serves a then
    .done (Memory.read (targetTurn s).mem a.toNat)
      ((targetTurn s).observe (.memRead a (Memory.read (targetTurn s).mem a.toNat)))
  else raise .memUnmapped s

/-- `MemWrite(a, 1, v)` (R41, R49, R51). -/
def memWrite (a : Addr) (v : Byte) (s : State) : Res Unit :=
  if s.cfg.serves a then
    .done () (((targetTurn s).withMem (Memory.write (targetTurn s).mem a.toNat v)).observe (.memWrite a v))
  else raise .memUnmapped s

/-! ### Buffer cells (R22, R26, R35) -/

/-- The byte in cell `i`, if one was written. -/
def Buf.cell? (b : Buf) (i : Nat) : Option Byte :=
  match b[i]? with
  | some (some v) => some v
  | _ => none

/-- The buffer with `v` in cell `i`, if the buffer has that cell. -/
def Buf.put? (b : Buf) (i : Nat) (v : Byte) : Option Buf :=
  if i < b.length then some (b.set i (some v)) else none

/-- The bytes `buf[lo .. lo + n)` (R15), if all of them were written. -/
def Buf.span? (b : Buf) : Nat → Nat → Option (List Byte)
  | _, 0 => some []
  | lo, n + 1 =>
    match Buf.cell? b lo with
    | some v => (Buf.span? b (lo + 1) n).map (v :: ·)
    | none => none

/-- A buffer of `cap` cells that holds `bytes` from cell 0 and nothing after them, if they fit (R35 (b)). -/
def Buf.load? (cap : Nat) (bytes : List Byte) : Option Buf :=
  if bytes.length ≤ cap then some (bytes.map some ++ blankBuf (cap - bytes.length)) else none

/-- Reads the bytes `buf[lo .. lo + n)` of a buffer; an unwritten cell among them is a fault (R35). -/
def readSpan (b : Buf) (lo n : Nat) (s : State) : Res (List Byte) :=
  match Buf.span? b lo n with
  | some bytes => .done bytes s
  | none => .stop .unwrittenCell

/-- `rx.buf[i] <- v` (R22). -/
def rxPut (i : Nat) (v : Byte) (s : State) : Res Unit :=
  match Buf.put? s.rx.buf i v with
  | some b => .done () (s.withRx { s.rx with buf := b })
  | none => .stop .outsideBuffer

/-- `tx.buf[i] <- v` (R26). -/
def txPut (i : Nat) (v : Byte) (s : State) : Res Unit :=
  match Buf.put? s.tx.buf i v with
  | some b => .done () (s.withTx { s.tx with buf := b })
  | none => .stop .outsideBuffer

/-- Stages `v` as byte `n` of the response payload: `tx.buf[5 + n] <- v` (R26). -/
def stage (n : Nat) (v : Byte) (s : State) : Res Unit := txPut (5 + n) v s

/-- Stages the bytes `vs` from payload offset `n` on. -/
def stageAll : Nat → List Byte → State → Res Unit
  | _, [], s => .done () s
  | n, v :: vs, s => (stage n v s).andThen fun _ s => stageAll (n + 1) vs s

/-! ### Emit (R187) -/

/-- `Emit(b)`: one call of the capability the block holds. It appends `b` to the output; it cannot fail. -/
def emit (b : Byte) (s : State) : State := s.observe (.emit s.emitter b)

end Sys2Proof.Machine
end

