-- ==== Sys2Proof/Machine/Operands.lean ====
section
/-! DEFINITION. Operand forms: the completed frame in `rx.buf` (42_dispatcher) and the bitfield arithmetic of
43_memory_access R136. The descriptor and the command byte are read by `parseDesc` and `decodeCommand` (Decode). -/

namespace Sys2Proof.Machine

open Sys2Proof

/-- The parts of a completed frame that Dispatch reads: `cmd = rx.buf[3]`, `seq = rx.buf[4]`, `P = rx.buf[5 .. 5+L)`,
the covered bytes `rx.buf[0 .. 5+L)` and the CRC field `le16(rx.buf[5+L], rx.buf[6+L])`. -/
structure RxFrame where
  cmd      : Byte
  seq      : Byte
  payload  : List Byte
  covered  : List Byte
  received : Half
  deriving DecidableEq, Repr

/-- The completed frame of length `L` in a receive buffer, if every byte of it was written (R110, R120). -/
def frameIn (buf : Buf) (L : Nat) : Option RxFrame :=
  match Buf.span? buf 0 (5 + L), Buf.cell? buf 3, Buf.cell? buf 4, Buf.span? buf 5 L, Buf.cell? buf (5 + L),
    Buf.cell? buf (6 + L) with
  | some covered, some cmd, some seq, some payload, some lo, some hi => some ⟨cmd, seq, payload, covered, le16 lo hi⟩
  | _, _, _, _, _, _ => none

/-- Reads the completed frame; `L = rx.len`. -/
def completedFrame (s : State) : Res RxFrame :=
  match frameIn s.rx.buf s.rx.len.toNat with
  | some f => .done f s
  | none => .stop .unwrittenCell

/-- `FieldMask(off, w) = trunc_8(((1 << w) - 1) << off)` (R136), over naturals (D18). -/
def fieldMask (off w : Byte) : Nat := (((1 <<< w.toNat) - 1) <<< off.toNat) % 256

/-- `ExtractField(byte, off, w) = trunc_8((byte >> off) & ((1 << w) - 1))` (R136). -/
def extractField (byte off w : Byte) : Byte :=
  BitVec.ofNat 8 ((byte.toNat >>> off.toNat) &&& ((1 <<< w.toNat) - 1))

/-- `InsertField(old, v, off, w) = (old & (255 - m)) | (trunc_8(v << off) & m)` (R136). -/
def insertField (old v off w : Byte) : Byte :=
  BitVec.ofNat 8 ((old.toNat &&& (255 - fieldMask off w)) ||| (((v.toNat <<< off.toNat) % 256) &&& fieldMask off w))

end Sys2Proof.Machine
end

