-- ==== Sys2Proof/Machine/Transmitter.lean ====
section
/-! DEFINITION. The Response Encoder and the frame transmitter (44_transmitter), the responses built with them
(30_encoding R71, 42_dispatcher R125 to R127, 43_memory_access R142 and R150), and the shared error path. -/

namespace Sys2Proof.Machine

open Sys2Proof

/-- `Encode(cmd, seq, n)` (R165) over the payload staged at `tx.buf[5 .. 5+n)`: the frame of R60 goes to `tx.buf[0 .. 7+n)`,
what lies beyond it becomes stale (R35 (b)), byte 0 is emitted, and the transmitter is Sending at index 1. -/
def encodeFrame (cmd : RespCode) (seq : Byte) (n : Nat) (s : State) : Res Unit :=
  (readSpan s.tx.buf 5 n s).andThen fun payload s =>
    match Buf.load? s.cfg.txCap (frameBytes s.cfg (s.cfg.respByte cmd) seq payload) with
    | none => .stop .outsideBuffer
    | some buf =>
      match Buf.cell? buf 0 with
      | none => .stop .unwrittenCell
      | some b => .done () ((emit b s).withTx ⟨.sending, buf, 7 + n, 1⟩)

/-- `ErrorResponse(code, seq)` (R127): the error path, entered when a rule reports a protocol error (R207). -/
def errorResponse (code : ErrCode) (seq : Byte) (s : State) : Res Unit :=
  (stage 0 (s.cfg.errByte code) s).andThen fun _ s => encodeFrame .error seq 1 s

/-- The read response over `n` staged bytes (R142). -/
def readResponse (seq : Byte) (n : Nat) (s : State) : Res Unit := encodeFrame .readResp seq n s

/-- The write response: one byte, ERR_OK (R150). -/
def writeResponse (seq : Byte) (s : State) : Res Unit :=
  (stage 0 s.cfg.errOk s).andThen fun _ s => encodeFrame .writeResp seq 1 s

/-- The pong: empty (R125). -/
def pongResponse (seq : Byte) (s : State) : Res Unit := encodeFrame .pong seq 0 s

/-- TXSLOT: while Sending and bytes remain, emit the next byte, and go Idle with the last one (R166, R167); otherwise
force Idle (R168). -/
def txSlot (s : State) : Res Unit :=
  if s.tx.state = .sending ∧ s.tx.idx < s.tx.len then
    match Buf.cell? s.tx.buf s.tx.idx with
    | none => .stop .unwrittenCell
    | some b =>
      .done () ((emit b s).withTx
        { s.tx with idx := s.tx.idx + 1, state := if s.tx.idx + 1 = s.tx.len then .idle else s.tx.state })
  else .done () (s.withTx { s.tx with state := .idle })

/-- TXSLOT (R166 to R168). -/
def execTxslot (s : State) : Host.Outcome State Fault Refusal :=
  whenRunning s fun s => (txSlot s).outcome

/-- ENCODE (R165). -/
def execEncode (cmd : RespCode) (seq : Byte) (n : Nat) (s : State) : Host.Outcome State Fault Refusal :=
  whenRunning s fun s => (requireIdle s (encodeFrame cmd seq n)).outcome

/-- READ_RESP (R142): the payload `[count] ++ values` is staged and the frame encoded. -/
def execReadResp (seq count : Byte) (values : List Byte) (s : State) : Host.Outcome State Fault Refusal :=
  whenRunning s fun s =>
    (requireIdle s fun s => (stageAll 0 (count :: values) s).andThen fun _ s => readResponse seq (1 + values.length) s).outcome

/-- WRITE_RESP (R150). -/
def execWriteResp (seq : Byte) (s : State) : Host.Outcome State Fault Refusal :=
  whenRunning s fun s => (requireIdle s (writeResponse seq)).outcome

/-- PONG (R125). -/
def execPong (seq : Byte) (s : State) : Host.Outcome State Fault Refusal :=
  whenRunning s fun s => (requireIdle s (pongResponse seq)).outcome

/-- ERROR (R127). -/
def execError (code : ErrCode) (seq : Byte) (s : State) : Host.Outcome State Fault Refusal :=
  whenRunning s fun s => (requireIdle s (errorResponse code seq)).outcome

end Sys2Proof.Machine
end

