-- ==== Sys2Proof/Machine/MemAccess.lean ====
section
/-! DEFINITION. The bitfield read/write memory-access unit: READ, READ.FULL, READ.BIT, WRITE, WRITE.FULL and WRITE.BIT
(43_memory_access). A descriptor's rule answers `none` when it has aborted its handler with an error response, and
otherwise what the handler goes on with: the response length `n` for READ, the payload that remains, `P[pos .. L)`, for WRITE. -/

namespace Sys2Proof.Machine

open Sys2Proof

/-- `ErrorResponse(ERR_INVALID_SIZE, seq)`, and the handler is aborted. -/
def abortInvalidSize {α : Type} (seq : Byte) (s : State) : Res (Option α) :=
  (errorResponse .invalidSize seq s).andThen fun _ s => .done none s

/-! ### READ -/

/-- The byte loop of R139: `k` bytes from address `a` on, in ascending order, to payload offsets `n` on; answers the new `n`. -/
def readBytes : Nat → Addr → Nat → State → Res Nat
  | 0, _, n, s => .done n s
  | k + 1, a, n, s =>
    (memRead a s).andThen fun v s => (stage n v s).andThen fun _ s => readBytes k (a + 1) (n + 1) s

/-- `ReadFull(A, S)` (R139), with the capacity check of R141 before any read. -/
def readFull (seq : Byte) (a : Addr) (size : Half) (n : Nat) (s : State) : Res (Option Nat) :=
  if s.cfg.maxPayload < n + size.toNat then abortInvalidSize seq s
  else (readBytes size.toNat a n s).andThen fun n s => .done (some n) s

/-- `ReadBit(A, off, w)` (R140), with the capacity check of R141 before the read. -/
def readBit (seq : Byte) (a : Addr) (off w : Byte) (n : Nat) (s : State) : Res (Option Nat) :=
  if s.cfg.maxPayload < n + 1 then abortInvalidSize seq s
  else
    (memRead a s).andThen fun byte s =>
      (stage n (extractField byte off w) s).andThen fun _ s => .done (some (n + 1)) s

/-- One READ descriptor (R66, R137). -/
def readDesc (seq : Byte) (d : Desc) (n : Nat) (s : State) : Res (Option Nat) :=
  if descIsFull d then readFull seq d.addr d.size n s else readBit seq d.addr d.bitOffset d.bitSize n s

/-- The READ descriptor loop, in array order (R137, R138): `k` descriptors at the head of `rest`. -/
def readLoop (seq : Byte) : Nat → List Byte → Nat → State → Res (Option Nat)
  | 0, _, n, s => .done (some n) s
  | k + 1, rest, n, s =>
    match parseDesc rest with
    | none => .stop .payloadBounds
    | some (d, rest) =>
      (readDesc seq d n s).andThen fun r s =>
        match r with
        | none => .done none s
        | some n => readLoop seq k rest n s

/-- `ReadHandler(P, seq)` (R137). -/
def readHandler (seq : Byte) (payload : List Byte) (s : State) : Res Unit :=
  match payload with
  | [] => errorResponse .invalidSize seq s
  | count :: rest =>
    if count = 0 ∨ s.cfg.maxVars < count.toNat then errorResponse .invalidSize seq s
    else if payload.length < 1 + 8 * count.toNat then errorResponse .invalidSize seq s
    else
      (stage 0 count s).andThen fun _ s =>
        (readLoop seq count.toNat rest 1 s).andThen fun r s =>
          match r with
          | none => .done () s
          | some n => readResponse seq n s

/-! ### WRITE -/

/-- The byte loop of R147: the bytes `vs`, verbatim, from address `a` on, in ascending order. -/
def writeBytes : Addr → List Byte → State → Res Unit
  | _, [], s => .done () s
  | a, v :: vs, s => (memWrite a v s).andThen fun _ s => writeBytes (a + 1) vs s

/-- `WriteFull(A, S)` (R147): the remaining-length check comes before every write of the element. -/
def writeFull (seq : Byte) (a : Addr) (size : Half) (rest : List Byte) (s : State) : Res (Option (List Byte)) :=
  if rest.length < size.toNat then abortInvalidSize seq s
  else (writeBytes a (rest.take size.toNat) s).andThen fun _ s => .done (some (rest.drop size.toNat)) s

/-- `WriteBit(A, off, w)` (R148): one data byte is consumed, then one MemRead and one MemWrite, even for an empty mask (D19). -/
def writeBit (seq : Byte) (a : Addr) (off w : Byte) (rest : List Byte) (s : State) : Res (Option (List Byte)) :=
  match rest with
  | [] => abortInvalidSize seq s
  | v :: rest =>
    (memRead a s).andThen fun old s =>
      (memWrite a (insertField old v off w) s).andThen fun _ s => .done (some rest) s

/-- One WRITE element (R66, R145). -/
def writeElem (seq : Byte) (d : Desc) (rest : List Byte) (s : State) : Res (Option (List Byte)) :=
  if descIsFull d then writeFull seq d.addr d.size rest s else writeBit seq d.addr d.bitOffset d.bitSize rest s

/-- The WRITE walk, left to right (R145): `k` elements at the head of `rest`, each after the header check of R146. -/
def writeLoop (seq : Byte) : Nat → List Byte → State → Res (Option (List Byte))
  | 0, rest, s => .done (some rest) s
  | k + 1, rest, s =>
    match parseDesc rest with
    | none => abortInvalidSize seq s
    | some (d, rest) =>
      (writeElem seq d rest s).andThen fun r s =>
        match r with
        | none => .done none s
        | some rest => writeLoop seq k rest s

/-- `WriteHandler(P, seq)` (R145): no up-front length test (D21), no rollback (R149). -/
def writeHandler (seq : Byte) (payload : List Byte) (s : State) : Res Unit :=
  match payload with
  | [] => errorResponse .invalidSize seq s
  | count :: rest =>
    if count = 0 ∨ s.cfg.maxVars < count.toNat then errorResponse .invalidSize seq s
    else
      (writeLoop seq count.toNat rest s).andThen fun r s =>
        match r with
        | none => .done () s
        | some _ => writeResponse seq s

/-! ### The meanings -/

/-- READ (R137). -/
def execRead (seq : Byte) (payload : List Byte) (s : State) : Host.Outcome State Fault Refusal :=
  whenRunning s fun s => (requireIdle s (readHandler seq payload)).outcome

/-- READ.FULL (R139); `bit_size` is ignored (R66). -/
def execReadFull (seq : Byte) (n : Nat) (addr : Addr) (size : Half) (_bitSize : Byte) (s : State) :
    Host.Outcome State Fault Refusal :=
  whenRunning s fun s => (requireIdle s (readFull seq addr size n)).outcome

/-- READ.BIT (R140); `size` is ignored (R66). -/
def execReadBit (seq : Byte) (n : Nat) (addr : Addr) (_size : Half) (bitOffset bitSize : Byte) (s : State) :
    Host.Outcome State Fault Refusal :=
  whenRunning s fun s => (requireIdle s (readBit seq addr bitOffset bitSize n)).outcome

/-- WRITE (R145). -/
def execWrite (seq : Byte) (payload : List Byte) (s : State) : Host.Outcome State Fault Refusal :=
  whenRunning s fun s => (requireIdle s (writeHandler seq payload)).outcome

/-- WRITE.FULL (R147); `bit_size` is ignored (R66). Delivered alone while Sending it raises TX_OVERRUN before any store, although
its success path stages no response: DESIGN CHOICE (log 12), the spec is silent. -/
def execWriteFull (seq : Byte) (addr : Addr) (size : Half) (_bitSize : Byte) (rest : List Byte) (s : State) :
    Host.Outcome State Fault Refusal :=
  whenRunning s fun s => (requireIdle s (writeFull seq addr size rest)).outcome

/-- WRITE.BIT (R148); `size` is ignored (R66). Delivered alone while Sending it raises TX_OVERRUN before any access, although its
success path stages no response: DESIGN CHOICE (log 12), the spec is silent. -/
def execWriteBit (seq : Byte) (addr : Addr) (_size : Half) (bitOffset bitSize : Byte) (rest : List Byte) (s : State) :
    Host.Outcome State Fault Refusal :=
  whenRunning s fun s => (requireIdle s (writeBit seq addr bitOffset bitSize rest)).outcome

end Sys2Proof.Machine
end

