-- ==== Sys2Proof/Machine/Dispatcher.lean ====
section
/-! DEFINITION. The command dispatcher, PING and unknown commands (42_dispatcher). -/

namespace Sys2Proof.Machine

open Sys2Proof

/-- `Route(cmd)` (R122 to R126): the command byte alone selects the handler. -/
def route (cmd seq : Byte) (payload : List Byte) (s : State) : Res Unit :=
  match decodeCommand s.cfg cmd with
  | .read => readHandler seq payload s
  | .write => writeHandler seq payload s
  | .ping => pongResponse seq s
  | .unknown => errorResponse .unknownCmd seq s

/-- `Dispatch()` (R120, R121) on the completed frame in `rx.buf`: the hazard check, the CRC check, then the route. -/
def dispatch (s : State) : Res Unit :=
  requireIdle s fun s =>
    (completedFrame s).andThen fun f s =>
      if crc16 f.covered = f.received then route f.cmd f.seq f.payload s else errorResponse .crc f.seq s

/-- DISPATCH (R120). -/
def execDispatch (s : State) : Host.Outcome State Fault Refusal :=
  whenRunning s fun s => (dispatch s).outcome

/-- PING (R125): the payload is ignored (D24). -/
def execPing (seq : Byte) (_payload : List Byte) (s : State) : Host.Outcome State Fault Refusal :=
  whenRunning s fun s => (requireIdle s (pongResponse seq)).outcome

/-- UNKNOWN (R126). -/
def execUnknown (_cmd seq : Byte) (_payload : List Byte) (s : State) : Host.Outcome State Fault Refusal :=
  whenRunning s fun s => (requireIdle s (errorResponse .unknownCmd seq)).outcome

end Sys2Proof.Machine
end

