-- ==== Sys2Proof/Machine/Receiver.lean ====
section
/-! DEFINITION. The frame receiver state machine: RX, one rule per state (41_receiver R101 to R108). -/

namespace Sys2Proof.Machine

open Sys2Proof

/-- `rx.state <- st`. -/
def rxGoto (st : RxState) (s : State) : Res Unit := .done () (s.withRx { s.rx with state := st })

/-- RX in Idle (R101). A marker starts a frame: from here on the cells of any earlier frame are stale (R35 (a)). -/
def rxIdle (b : Byte) (s : State) : Res Unit :=
  if b = s.cfg.startMarker then
    (rxPut 0 b (s.withRx { s.rx with buf := blankBuf s.cfg.rxCap })).andThen fun _ s => rxGoto .lenLow s
  else .done () s

/-- RX in LenLow (R102). -/
def rxLenLow (b : Byte) (s : State) : Res Unit :=
  (rxPut 1 b s).andThen fun _ s => rxGoto .lenHigh (s.withRx { s.rx with len := b.setWidth 16 })

/-- RX in LenHigh (R103): the capacity check; an oversize length is dropped silently and stays in `rx.len` (D39). -/
def rxLenHigh (b : Byte) (s : State) : Res Unit :=
  (rxPut 2 b s).andThen fun _ s =>
    let len := s.rx.len ||| (b.setWidth 16 <<< 8)
    rxGoto (if s.cfg.maxPayload < len.toNat then .idle else .command) (s.withRx { s.rx with len := len })

/-- RX in Command (R104). -/
def rxCommand (b : Byte) (s : State) : Res Unit :=
  (rxPut 3 b s).andThen fun _ s => rxGoto .sequence s

/-- RX in Sequence (R105). -/
def rxSequence (b : Byte) (s : State) : Res Unit :=
  (rxPut 4 b s).andThen fun _ s =>
    rxGoto (if s.rx.len = 0 then .crcLow else .payload) (s.withRx { s.rx with idx := 0 })

/-- RX in Payload (R106). -/
def rxPayload (b : Byte) (s : State) : Res Unit :=
  (rxPut (5 + s.rx.idx.toNat) b s).andThen fun _ s =>
    rxGoto (if s.rx.idx + 1 = s.rx.len then .crcLow else .payload) (s.withRx { s.rx with idx := s.rx.idx + 1 })

/-- RX in CrcLow (R107). -/
def rxCrcLow (b : Byte) (s : State) : Res Unit :=
  (rxPut (5 + s.rx.len.toNat) b s).andThen fun _ s => rxGoto .crcHigh s

/-- RX in CrcHigh (R108): the frame is complete, is dispatched in the same event, and the receiver returns to Idle
whatever the dispatch did, a raised fault apart. -/
def rxCrcHigh (b : Byte) (s : State) : Res Unit :=
  (rxPut (6 + s.rx.len.toNat) b s).andThen fun _ s => (dispatch s).andThen fun _ s => rxGoto .idle s

/-- `case rx.state of` R101 to R108 (R100). -/
def receive (b : Byte) (s : State) : Res Unit :=
  match s.rx.state with
  | .idle => rxIdle b s
  | .lenLow => rxLenLow b s
  | .lenHigh => rxLenHigh b s
  | .command => rxCommand b s
  | .sequence => rxSequence b s
  | .payload => rxPayload b s
  | .crcLow => rxCrcLow b s
  | .crcHigh => rxCrcHigh b s

/-- RX: notify-byte-received(b) (R100). -/
def execRx (b : Byte) (s : State) : Host.Outcome State Fault Refusal :=
  whenRunning s fun s => (receive b s).outcome

end Sys2Proof.Machine
end

