-- ==== Sys2Proof/Machine/EntryPoints.lean ====
section
/-! DEFINITION. The remaining entry points, INIT, BUSY? and VERSION? (45_entry_points, 70_reset_and_hazards), and CRC16
called on its own (40_crc). -/

namespace Sys2Proof.Machine

open Sys2Proof

/-- `Initialize(e)` (R230, R231): the elements of R36; `fault` and target memory are untouched. -/
def initBlock (e : Emitter) (s : State) : State :=
  { s with emitter := e, rx := RxCtx.reset s.cfg, tx := TxCtx.reset s.cfg, init := true }

/-- INIT: initialize(emitter) (R230); allowed at any time, but not on a faulted block. -/
def execInit (e : Emitter) (s : State) : Host.Outcome State Fault Refusal :=
  whenReady s fun s => .next (initBlock e s)

/-- BUSY?: query-transmitter-busy() (R188). -/
def execBusy (s : State) : Host.Outcome State Fault Refusal :=
  whenRunning s fun s => .next (s.observe (.busy s.isBusy))

/-- VERSION?: get-version() (R186). -/
def execVersion (s : State) : Host.Outcome State Fault Refusal :=
  whenRunning s fun s => .next (s.observe (.version s.cfg.version))

/-- CRC16 called on its own (R90): it writes no state; its result is shown to the caller. It reads no state either, so it runs
before the first initialize too: DESIGN CHOICE (log 14), the spec calls it from inside events only. -/
def execCrc16 (bytes : List Byte) (s : State) : Host.Outcome State Fault Refusal :=
  whenReady s fun s => .next (s.observe (.crc (crc16 bytes)))

end Sys2Proof.Machine
end

