-- ==== Sys2Proof/Machine/Dispatch.lean ====
section
/-! DEFINITION. One arm per operation of spec/opcode_table.json. -/

namespace Sys2Proof.Machine

open Sys2Proof

def exec (i : Instr) (s : State) : Host.Outcome State Fault Refusal :=
  match i with
  | .init e => Sys2Proof.Machine.execInit e s
  | .rx b => Sys2Proof.Machine.execRx b s
  | .txslot => Sys2Proof.Machine.execTxslot s
  | .busy => Sys2Proof.Machine.execBusy s
  | .version => Sys2Proof.Machine.execVersion s
  | .dispatch => Sys2Proof.Machine.execDispatch s
  | .read seq payload => Sys2Proof.Machine.execRead seq payload s
  | .readFull seq n addr size w => Sys2Proof.Machine.execReadFull seq n addr size w s
  | .readBit seq n addr size off w => Sys2Proof.Machine.execReadBit seq n addr size off w s
  | .write seq payload => Sys2Proof.Machine.execWrite seq payload s
  | .writeFull seq addr size w rest => Sys2Proof.Machine.execWriteFull seq addr size w rest s
  | .writeBit seq addr size off w rest => Sys2Proof.Machine.execWriteBit seq addr size off w rest s
  | .ping seq payload => Sys2Proof.Machine.execPing seq payload s
  | .unknown cmd seq payload => Sys2Proof.Machine.execUnknown cmd seq payload s
  | .crc16 bytes => Sys2Proof.Machine.execCrc16 bytes s
  | .encode cmd seq n => Sys2Proof.Machine.execEncode cmd seq n s
  | .readResp seq count values => Sys2Proof.Machine.execReadResp seq count values s
  | .writeResp seq => Sys2Proof.Machine.execWriteResp seq s
  | .pong seq => Sys2Proof.Machine.execPong seq s
  | .error code seq => Sys2Proof.Machine.execError code seq s

end Sys2Proof.Machine
end

