-- ==== Sys2Proof/Machine/Fetch.lean ====
section
/-! DEFINITION. What the block is given next. It fetches no instructions (10_state R34): it waits for the next delivery
of its environment (00_scope R7). -/

namespace Sys2Proof.Machine

open Sys2Proof

/-- The next delivery and the state with it taken, or none while no event comes (R216). -/
def nextDelivery (s : State) : Option (Instr × State) :=
  match s.pending with
  | [] => none
  | i :: later => some (i, s.withPending later)

/-- The state with `i` delivered next, before what was pending. -/
def deliverFirst (i : Instr) (s : State) : State := s.withPending (i :: s.pending)

end Sys2Proof.Machine
end

