-- ==== Sys2Proof/Machine/Step.lean ====
section
/-! DEFINITION. One step: the delivery of one event, run to completion (00_scope R7). -/

namespace Sys2Proof.Machine

open Sys2Proof

/-- One step (R7). A faulted block has none (R203). With nothing pending the block keeps all state (R216). A delivery
whose operands no event has is refused (log 8); every other delivery runs. -/
def step (s : State) : Host.Outcome State Fault Refusal :=
  match s.fault with
  | some kind => .fault (.stuck kind)
  | none =>
    match nextDelivery s with
    | none => .next s
    | some (i, s) => if i.wf s.cfg then exec i s else .refused .illFormed

/-- `s` with the operation that the table word stands for delivered next (log 4); `s` itself where the word is none. -/
def State.withFetchWord (s : State) (nbits w : Nat) : State :=
  match decodeTableWord nbits w with
  | some i => deliverFirst i s
  | none => s

end Sys2Proof.Machine
end

