-- ==== Sys2Proof/Safety.lean ====
section
/-! DEFINITION. The terms in which claims about the block are stated: a block that can take an event, a run of several
operations, what a run has shown, the invariant of the two contexts (10_state R23 to R28, 41_receiver R110), and the values
and stores that a descriptor names (43_memory_access). -/

namespace Sys2Proof.Machine

open Sys2Proof

/-- A block that takes every event: no fault, a configuration that meets R10, initialised (R100 "Preconditions"). -/
structure Running (s : State) : Prop where
  noFault : s.fault = none
  cfgOk   : s.cfg.ok = true
  inited  : s.init = true

/-- A safe state: no fault has been raised (R203: a run that reaches one "refutes every claim"). -/
def State.Safe (s : State) : Prop := s.fault = none

/-! ### Runs -/

/-- The operations one after the other, as long as each leaves a next state. -/
def execAll : List Instr → State → Host.Outcome State Fault Refusal
  | [], s => .next s
  | i :: is, s =>
    match exec i s with
    | .next t => execAll is t
    | .fault f => .fault f
    | .refused r => .refused r

/-- `rx* bs` (30_encoding R76): one RX per byte, in order. -/
def rxAll (bs : List Byte) (s : State) : Host.Outcome State Fault Refusal := execAll (bs.map .rx) s

/-- `n` TXSLOT events. -/
def slots (n : Nat) (s : State) : Host.Outcome State Fault Refusal := execAll (List.replicate n .txslot) s

/-- What RX does after the dispatch of R108: the receiver returns to Idle, unless a fault was raised. -/
def thenIdle (o : Host.Outcome State Fault Refusal) : Host.Outcome State Fault Refusal :=
  match o with
  | .next t => if t.fault = none then .next (t.withRx { t.rx with state := .idle }) else .next t
  | .fault f => .fault f
  | .refused r => .refused r

/-! ### What a run has shown (R191) -/

/-- The byte of an Emit. -/
def Obs.emitted? : Obs → Option Byte
  | .emit _ b => some b
  | _ => none

/-- Whether an observation is a MemRead or MemWrite event. -/
def Obs.isAccess : Obs → Bool
  | .memRead _ _ => true
  | .memWrite _ _ => true
  | _ => false

/-- Whether an observation is a MemWrite event. -/
def Obs.isWrite : Obs → Bool
  | .memWrite _ _ => true
  | _ => false

/-- The bytes emitted so far, in order. -/
def State.output (s : State) : List Byte := s.trace.filterMap Obs.emitted?

/-- The memory events so far, in order. -/
def State.accesses (s : State) : List Obs := s.trace.filter Obs.isAccess

/-! ### Invariant -/

/-- How many bytes of the current frame have been received, by the receiver's state (R21, R22). -/
def rxExtent (r : RxCtx) : Nat :=
  match r.state with
  | .idle => 0
  | .lenLow => 1
  | .lenHigh => 2
  | .command => 3
  | .sequence => 4
  | .payload => 5 + r.idx.toNat
  | .crcLow => 5 + r.len.toNat
  | .crcHigh => 6 + r.len.toNat

/-- The receiver states after the capacity check of R103. -/
def RxState.pastCheck : RxState → Bool
  | .idle | .lenLow | .lenHigh => false
  | .command | .sequence | .payload | .crcLow | .crcHigh => true

/-- The Receive Context of an initialised block: a buffer of RXCAP cells (R22), a length within the capacity once checked
(R23), an index below the length while in Payload (R24), every received byte written (R110). -/
structure RxInv (p : Params) (r : RxCtx) : Prop where
  cap     : r.buf.length = p.rxCap
  len     : r.state.pastCheck = true → r.len.toNat ≤ p.maxPayload
  idx     : r.state = .payload → r.idx.toNat < r.len.toNat
  written : ∀ i, i < rxExtent r → (Buf.cell? r.buf i).isSome = true

/-- The Transmit Context of an initialised block: a buffer of TXCAP cells (R26), a length within the capacity (R27), the
index of R28 and a wholly written frame while Sending. -/
structure TxInv (p : Params) (t : TxCtx) : Prop where
  cap     : t.buf.length = p.txCap
  len     : t.len ≤ 7 + p.maxPayload
  idx     : t.state = .sending → 1 ≤ t.idx ∧ t.idx < t.len
  written : t.state = .sending → ∀ i, i < t.len → (Buf.cell? t.buf i).isSome = true

/-- The invariant of the machine: target memory is in canonical form, and an initialised block's contexts are as above
(before the first initialize they are unspecified, R36). -/
structure State.Inv (s : State) : Prop where
  mem : Memory.wf s.mem = true
  rx  : s.init = true → RxInv s.cfg s.rx
  tx  : s.init = true → TxInv s.cfg s.tx

/-! ### Target memory -/

/-- The byte of target memory at `a`. -/
def State.byteAt (s : State) (a : Addr) : Byte := Memory.read s.mem a.toNat

/-- No store of the target program that is still to come names the byte `a` (R51). -/
def State.targetLeaves (s : State) (a : Addr) : Prop := ∀ turn ∈ s.target, ∀ st ∈ turn, st.addr ≠ a

/-- The addresses of a full access: `A, A+1, …, A+size−1` modulo 2^32 (R42, R46). -/
def spanAddrs : Addr → Nat → List Addr
  | _, 0 => []
  | a, k + 1 => a :: spanAddrs (a + 1) k

/-- Memory after the bytes `vs` are stored from `a` on (R147). -/
def storeBytes : Memory → Addr → List Byte → Memory
  | m, _, [] => m
  | m, a, v :: vs => storeBytes (Memory.write m a.toNat v) (a + 1) vs

/-- Memory after these turns of the target program, in order (R51). -/
def targetMem (m : Memory) (turns : List (List TargetStore)) : Memory := turns.foldl storeAll m

/-- The values of `k` reads at ascending addresses from `a` on, one of the target program's turns before each (R46, R51). -/
def turnReads : Memory → List (List TargetStore) → Addr → Nat → List Byte
  | _, _, _, 0 => []
  | m, turns, a, k + 1 =>
    Memory.read (storeAll m (turns.headD [])) a.toNat :: turnReads (storeAll m (turns.headD [])) turns.tail (a + 1) k

/-- Memory after the bytes `vs` are stored from `a` on, one of the target program's turns before each (R51, R147). -/
def storeTurns : Memory → List (List TargetStore) → Addr → List Byte → Memory
  | m, _, _, [] => m
  | m, turns, a, v :: vs => storeTurns (Memory.write (storeAll m (turns.headD [])) a.toNat v) turns.tail (a + 1) vs

/-- The value a READ descriptor names in memory `m`: the raw bytes, or the one extracted byte (R139, R140). -/
def descValue (m : Memory) (d : Desc) : List Byte :=
  if descIsFull d then (spanAddrs d.addr d.size.toNat).map fun a => Memory.read m a.toNat
  else [extractField (Memory.read m d.addr.toNat) d.bitOffset d.bitSize]

/-- The addresses a descriptor's access touches (R46). -/
def descAddrs (d : Desc) : List Addr := if descIsFull d then spanAddrs d.addr d.size.toNat else [d.addr]

/-- The MemRead events of a READ descriptor in memory `m` (R46). -/
def descReads (m : Memory) (d : Desc) : List Obs :=
  (descAddrs d).map fun a => .memRead a (Memory.read m a.toNat)

/-- How many data bytes follow a descriptor in a WRITE element (R69, R78). -/
def descDataLen (d : Desc) : Nat := if descIsFull d then d.size.toNat else 1

/-- Memory `m` after the WRITE element with descriptor `d` and data `data` (R147, R148). -/
def elemStore (m : Memory) (d : Desc) (data : List Byte) : Memory :=
  if descIsFull d then storeBytes m d.addr data
  else
    match data with
    | v :: _ => Memory.write m d.addr.toNat (insertField (Memory.read m d.addr.toNat) v d.bitOffset d.bitSize)
    | [] => m

/-- A WRITE element: a descriptor and its data (R69). -/
structure WriteElem where
  desc : Desc
  data : List Byte
  deriving DecidableEq, Repr

/-- The element's bytes in a WRITE payload (R69). -/
def WriteElem.bytes (e : WriteElem) : List Byte := descBytes e.desc ++ e.data

/-- The element has exactly the data its descriptor calls for (R69). -/
def WriteElem.whole (e : WriteElem) : Bool := decide (e.data.length = descDataLen e.desc)

/-- Memory after the elements, left to right (R145, R151 (a)). -/
def storeElems (m : Memory) (es : List WriteElem) : Memory := es.foldl (fun m e => elemStore m e.desc e.data) m

/-- The memory events of one WRITE element in memory `m`: one MemWrite per byte, or one MemRead and one MemWrite (R46). -/
def elemEvents (m : Memory) (e : WriteElem) : List Obs :=
  if descIsFull e.desc then List.zipWith Obs.memWrite (spanAddrs e.desc.addr e.desc.size.toNat) e.data
  else
    match e.data with
    | v :: _ =>
      [.memRead e.desc.addr (Memory.read m e.desc.addr.toNat),
       .memWrite e.desc.addr
         (insertField (Memory.read m e.desc.addr.toNat) v e.desc.bitOffset e.desc.bitSize)]
    | [] => []

/-- The memory events of the elements, left to right, each in the memory the earlier ones leave. -/
def storeEvents : Memory → List WriteElem → List Obs
  | _, [] => []
  | m, e :: es => elemEvents m e ++ storeEvents (elemStore m e.desc e.data) es

/-- The payload bytes are short of the next element: fewer than 8 remain, or fewer than its data (R146 to R148). -/
def shortOfElem (rest : List Byte) : Prop :=
  match parseDesc rest with
  | none => True
  | some (d, rest) => rest.length < descDataLen d

/-- The memory accessor serves every address of the list (R49). -/
def servesAll (p : Params) (as : List Addr) : Prop := ∀ a ∈ as, p.serves a = true

/-- The addresses that the walk of a WRITE payload can store to: those of each element it reaches (R145, R146). -/
def walkAddrs : Nat → List Byte → List Addr
  | 0, _ => []
  | k + 1, rest =>
    match parseDesc rest with
    | none => []
    | some (d, rest) => descAddrs d ++ walkAddrs k (rest.drop (descDataLen d))

/-- The addresses that a WRITE payload can store to (R145). -/
def writeAddrs (payload : List Byte) : List Addr :=
  match payload with
  | [] => []
  | count :: rest => walkAddrs count.toNat rest

/-! ### Responses -/

/-- `t` is `s` with one response frame staged and its byte 0 emitted: command code `c`, sequence byte `seq`, payload
`payload` (R71, R165). Nothing else of `s` has changed. -/
def Answers (s t : State) (c : RespCode) (seq : Byte) (payload : List Byte) : Prop :=
  ∃ buf, t = { s with tx := ⟨.sending, buf, 7 + payload.length, 1⟩,
                      trace := s.trace ++ [.emit s.emitter s.cfg.startMarker] } ∧
    Buf.span? buf 0 (7 + payload.length) = some (frameBytes s.cfg (s.cfg.respByte c) seq payload)

end Sys2Proof.Machine
end

