-- ==== Sys2Proof/Certificates/Slice0/Obligations.lean ====
section
/-! DEFINITION. The statements for the provers. Each is a claim about the machine, over all states and parameters; none is
about one program. Where a statement rests on a choice of the spec's authors or of this model, its docstring says so. -/

open Sys2Proof Sys2Proof.Machine

/-! ### Entry points -/

/-- INIT (R230, R231, R36; the spec's own choice D27, D38): on a block without a fault, initialize leaves exactly the reset
values, whatever was in progress; it emits nothing and touches no memory. -/
def Obligations.InitLeavesResetValues : Prop :=
  ∀ (e : Emitter) (s : State), s.fault = none → s.cfg.ok = true →
    exec (.init e) s = .next { s with emitter := e, init := true,
                                      rx := ⟨.idle, blankBuf (7 + s.cfg.maxPayload), 0, 0⟩,
                                      tx := ⟨.idle, blankBuf (7 + s.cfg.maxPayload), 0, 0⟩ }

/-- After a fault the block has no step for any operation, initialize included (R203 for events; the spec's own choice D28;
for the rows that are no events, delivered alone, the model's choice, log 14). -/
def Obligations.FaultedBlockHasNoStep : Prop :=
  ∀ (s : State) (k : FaultKind), s.fault = some k →
    step s = .fault (.stuck k) ∧ ∀ i, exec i s = .fault (.stuck k)

/-- Before the first initialize every other entry point is refused (R234, R204 (a); the spec's own choice D28). -/
def Obligations.EntryBeforeInitRefused : Prop :=
  ∀ (i : Instr) (s : State), s.fault = none → s.cfg.ok = true → s.init = false → i.isEntry = true →
    (∀ e, i ≠ .init e) → exec i s = .refused .notInitialised

/-- A configuration that breaks R10 is refused (R204 (b) for events; its bounds are the spec's own choice D3, D4, D6; for the rows
that are no events, delivered alone, the model's choice, log 14). -/
def Obligations.BrokenConfigurationRefused : Prop :=
  ∀ (i : Instr) (s : State), s.fault = none →
    ¬ (s.cfg.commands.Nodup ∧ s.cfg.codes.Nodup ∧ 1 ≤ s.cfg.maxPayload ∧ s.cfg.maxPayload ≤ 65535 ∧
        1 ≤ s.cfg.maxVars ∧ s.cfg.maxVars ≤ 255) →
    exec i s = .refused .badConfiguration

/-- BUSY? answers `tx.state == Sending` and writes no state (R188). -/
def Obligations.BusyAnswersSending : Prop :=
  ∀ s : State,
    (Running s → exec .busy s = .next { s with trace := s.trace ++ [.busy (decide (s.tx.state = .sending))] }) ∧
    (s.fault = none → s.cfg.ok = true → s.init = false → exec .busy s = .refused .notInitialised) ∧
    (∀ k, s.fault = some k → exec .busy s = .fault (.stuck k))

/-- VERSION? answers the parameter VERSION and writes no state (R186; that VERSION is a parameter is D7). -/
def Obligations.VersionAnswersParameter : Prop :=
  ∀ s : State, Running s → exec .version s = .next { s with trace := s.trace ++ [.version s.cfg.version] }

/-- CRC16 run on its own writes no state; its result, the fold of R92 over R90's steps with no final XOR (the spec's own
choice D9), is shown (the model's choice, log 7). It reads no state either, and so completes before the first initialize too (the
model's choice, log 14). -/
def Obligations.Crc16ShowsItsResult : Prop :=
  ∀ (bytes : List Byte) (s : State), s.fault = none → s.cfg.ok = true →
    exec (.crc16 bytes) s = .next { s with trace := s.trace ++ [.crc (bytes.foldl crcByte 0xFFFF)] }

/-- The busy flag changes only where R29 lists it: set by the RX that completes a frame, cleared by TXSLOT at the end of the
frame, and by initialize (that the last byte's TXSLOT clears it is the spec's own choice D11). -/
def Obligations.BusyFlagWriters : Prop :=
  ∀ (i : Instr) (s t : State), i.isEntry = true → exec i s = .next t → t.isBusy ≠ s.isBusy →
    (∃ e, i = .init e ∧ t.isBusy = false) ∨
    (∃ b, i = .rx b ∧ s.rx.state = .crcHigh ∧ t.isBusy = true) ∨
    (i = .txslot ∧ s.tx.len ≤ s.tx.idx + 1 ∧ t.isBusy = false)

/-! ### Receiver -/

/-- RX in Idle (R101): any byte but the marker is discarded; the marker is stored and starts a frame. -/
def Obligations.RxIdleWaitsForMarker : Prop :=
  ∀ (b : Byte) (s : State), Running s → s.rx.state = .idle →
    (b ≠ s.cfg.startMarker → exec (.rx b) s = .next s) ∧
    (b = s.cfg.startMarker → ∃ r, exec (.rx b) s = .next { s with rx := r } ∧ r.state = .lenLow ∧
      Buf.cell? r.buf 0 = some b ∧ r.len = s.rx.len ∧ r.idx = s.rx.idx)

/-- RX in LenLow and LenHigh (R102, R103): the little-endian length, and the capacity check with its silent drop, which keeps the
oversize length (the spec's own choice D39). -/
def Obligations.RxLengthAndCapacity : Prop :=
  ∀ (b : Byte) (s : State), Running s → s.Inv →
    (s.rx.state = .lenLow →
      exec (.rx b) s = .next { s with rx := ⟨.lenHigh, s.rx.buf.set 1 (some b), b.setWidth 16, s.rx.idx⟩ }) ∧
    (s.rx.state = .lenHigh →
      let len := s.rx.len ||| (b.setWidth 16 <<< 8)
      exec (.rx b) s = .next { s with rx :=
        ⟨if len.toNat > s.cfg.maxPayload then .idle else .command, s.rx.buf.set 2 (some b), len, s.rx.idx⟩ })

/-- RX in Command (R104): the byte is captured verbatim. -/
def Obligations.RxCapturesCommand : Prop :=
  ∀ (b : Byte) (s : State), Running s → s.Inv → s.rx.state = .command →
    exec (.rx b) s = .next { s with rx := ⟨.sequence, s.rx.buf.set 3 (some b), s.rx.len, s.rx.idx⟩ }

/-- RX in Sequence (R105; clearing the index here is the spec's own choice D27): an empty payload goes straight to the CRC. RX in
CrcLow (R107; that the CRC bytes are held in the buffer is the spec's own choice D33): the byte is kept at its offset. -/
def Obligations.RxSequenceAndCrcLow : Prop :=
  ∀ (b : Byte) (s : State), Running s → s.Inv →
    (s.rx.state = .sequence →
      exec (.rx b) s = .next { s with rx :=
        ⟨if s.rx.len = 0 then .crcLow else .payload, s.rx.buf.set 4 (some b), s.rx.len, 0⟩ }) ∧
    (s.rx.state = .crcLow →
      exec (.rx b) s = .next { s with rx :=
        ⟨.crcHigh, s.rx.buf.set (5 + s.rx.len.toNat) (some b), s.rx.len, s.rx.idx⟩ })

/-- RX in Payload (R106): exactly `rx.len` bytes are consumed as payload, whatever their values. -/
def Obligations.RxPayloadCountsBytes : Prop :=
  ∀ (b : Byte) (s : State), Running s → s.Inv → s.rx.state = .payload →
    exec (.rx b) s = .next { s with rx :=
      ⟨if s.rx.idx.toNat + 1 = s.rx.len.toNat then .crcLow else .payload,
       s.rx.buf.set (5 + s.rx.idx.toNat) (some b), s.rx.len, s.rx.idx + 1⟩ }

/-- RX in CrcHigh (R108): the byte is stored, the frame is dispatched in the same event, and the receiver returns to Idle,
unless the dispatch raised a fault (that the CRC bytes are held in the buffer is the spec's own choice D33). -/
def Obligations.RxCrcHighDispatches : Prop :=
  ∀ (b : Byte) (s : State), Running s → s.Inv → s.rx.state = .crcHigh →
    exec (.rx b) s =
      thenIdle (exec .dispatch { s with rx := { s.rx with buf := s.rx.buf.set (6 + s.rx.len.toNat) (some b) } })

/-- Delivering a frame's bytes one at a time to an idle receiver completes it exactly once, at its last byte (R111, which the
spec derives), whatever bytes it holds (R112): with a good CRC the request it encodes runs, with a bad one the CRC error is
sent; the receiver ends in Idle unless a fault was raised. -/
def Obligations.DeliveredFrameRunsItsRequest : Prop :=
  ∀ (s : State) (cmd seq lo hi : Byte) (payload : List Byte), Running s → s.Inv → s.rx.state = .idle →
    s.tx.state = .idle → payload.length ≤ s.cfg.maxPayload →
    ∃ r r' : RxCtx,
      rxAll (frameBody s.cfg cmd seq payload ++ [lo]) s = .next { s with rx := r } ∧ r.state = .crcHigh ∧
      frameIn r'.buf r'.len.toNat = some ⟨cmd, seq, payload, frameBody s.cfg cmd seq payload, le16 lo hi⟩ ∧
      (le16 lo hi = crc16 (frameBody s.cfg cmd seq payload) →
        rxAll (frameBody s.cfg cmd seq payload ++ [lo, hi]) s =
          thenIdle (exec (requestInstr s.cfg cmd seq payload) { s with rx := r' })) ∧
      (le16 lo hi ≠ crc16 (frameBody s.cfg cmd seq payload) →
        rxAll (frameBody s.cfg cmd seq payload ++ [lo, hi]) s =
          thenIdle (exec (.error .crc seq) { s with rx := r' }))

/-- A received byte that completes no frame and a transmit slot can come in either order (R114, R206; the spec's own choices
D13, D36). -/
def Obligations.RxAndTxslotCommute : Prop :=
  ∀ (b : Byte) (s : State), Running s → s.Inv → s.rx.state ≠ .crcHigh →
    ∃ t, execAll [.rx b, .txslot] s = .next t ∧ execAll [.txslot, .rx b] s = .next t

/-! ### Encoder and transmitter -/

/-- ENCODE (R165): the whole frame is staged, byte 0 is emitted, the transmitter is Sending at index 1. -/
def Obligations.EncodeStagesWholeFrame : Prop :=
  ∀ (c : RespCode) (seq : Byte) (n : Nat) (payload : List Byte) (s : State), Running s → s.tx.state = .idle →
    n ≤ s.cfg.maxPayload → Buf.span? s.tx.buf 5 n = some payload →
    ∃ buf, exec (.encode c seq n) s =
        .next { s with tx := ⟨.sending, buf, 7 + n, 1⟩,
                       trace := s.trace ++ [.emit s.emitter s.cfg.startMarker] } ∧
      Buf.span? buf 0 (7 + n) = some
        ([s.cfg.startMarker, lo8 n, hi8 n, s.cfg.respByte c, seq] ++ payload ++
          bytes16 (crc16 ([s.cfg.startMarker, lo8 n, hi8 n, s.cfg.respByte c, seq] ++ payload)).toNat)

/-- TXSLOT while Sending (R166): the next byte goes out and the index advances; with the last byte the transmitter goes Idle in
the same event (R167, the spec's own choice D11). -/
def Obligations.TxslotEmitsNextByte : Prop :=
  ∀ (s : State), Running s → s.Inv → s.tx.state = .sending →
    ∃ b, Buf.cell? s.tx.buf s.tx.idx = some b ∧
      exec .txslot s = .next { s with
        tx := ⟨if s.tx.idx + 1 = s.tx.len then .idle else .sending, s.tx.buf, s.tx.len, s.tx.idx + 1⟩,
        trace := s.trace ++ [.emit s.emitter b] }

/-- TXSLOT while Idle emits nothing and changes nothing, however often it comes (R168). -/
def Obligations.TxslotIdleDoesNothing : Prop :=
  ∀ (s : State) (n : Nat), Running s → s.tx.state = .idle → exec .txslot s = .next s ∧ slots n s = .next s

/-- Emission order (R169, which the spec derives): after byte 0, the TXSLOT events emit the bytes 1, 2, … of the staged frame,
each once and in order; the transmitter is busy until the last of them and Idle after it. -/
def Obligations.StagedFrameGoesOutInOrder : Prop :=
  ∀ (s : State) (frame : List Byte), Running s → s.tx.state = .sending → s.tx.idx = 1 → s.tx.len = frame.length →
    2 ≤ frame.length → Buf.span? s.tx.buf 0 frame.length = some frame →
    (∀ k, k + 1 < frame.length →
      ∃ t, slots k s = .next t ∧ t.output = s.output ++ (frame.drop 1).take k ∧ t.isBusy = true) ∧
    ∃ t, slots (frame.length - 1) s = .next t ∧ t.output = s.output ++ frame.drop 1 ∧ t.isBusy = false ∧
      t = { s with tx := { s.tx with state := .idle, idx := s.tx.len }, trace := t.trace }

/-- READ_RESP (R142, R71): the payload `[count] ++ values` is framed and its emission begun. -/
def Obligations.ReadRespAnswers : Prop :=
  ∀ (seq count : Byte) (values : List Byte) (s : State), Running s → s.Inv → s.tx.state = .idle →
    1 + values.length ≤ s.cfg.maxPayload →
    ∃ t, exec (.readResp seq count values) s = .next t ∧ Answers s t .readResp seq (count :: values)

/-- WRITE_RESP carries ERR_OK and ERROR its one-byte code (R150, R127; the payloads are the spec's own choice D8, D40). -/
def Obligations.WriteRespAndErrorAnswer : Prop :=
  ∀ (seq : Byte) (code : ErrCode) (s : State), Running s → s.Inv → s.tx.state = .idle →
    (∃ t, exec (.writeResp seq) s = .next t ∧ Answers s t .writeResp seq [s.cfg.errOk]) ∧
    ∃ t, exec (.error code seq) s = .next t ∧ Answers s t .error seq [s.cfg.errByte code]

/-- PING is answered with an empty pong, whatever its payload (R125; that the payload is ignored is D24). -/
def Obligations.PingAnswersEmptyPong : Prop :=
  ∀ (seq : Byte) (payload : List Byte) (s : State), Running s → s.tx.state = .idle →
    ∃ t, exec (.ping seq payload) s = .next t ∧ exec (.pong seq) s = .next t ∧ Answers s t .pong seq []

/-- UNKNOWN sends the error response with code ERR_UNKNOWN_CMD, writes the Transmit Context only and makes no memory access
(R126). -/
def Obligations.UnknownCommandAnswersError : Prop :=
  ∀ (cmd seq : Byte) (payload : List Byte) (s : State), Running s → s.Inv → s.tx.state = .idle →
    ∃ t, exec (.unknown cmd seq payload) s = .next t ∧ exec (.error .unknownCmd seq) s = .next t ∧
      t = { s with tx := t.tx, trace := t.trace } ∧ t.accesses = s.accesses

/-! ### Dispatcher -/

/-- A frame that completes while the transmitter is Sending raises TX_OVERRUN, before any look at the frame, and nothing else
happens (R120, R240; the spec's own choice D12). -/
def Obligations.CompletionWhileSendingOverruns : Prop :=
  ∀ s : State, Running s → s.tx.state = .sending → exec .dispatch s = .next { s with fault := some .txOverrun }

/-- A CRC mismatch is answered with the error response ERR_CRC and the received sequence byte; no handler runs, only the
Transmit Context is written, no memory is accessed, whatever the command byte (R121). -/
def Obligations.CrcMismatchAnswersError : Prop :=
  ∀ (s : State) (f : RxFrame), Running s → s.Inv → s.tx.state = .idle →
    frameIn s.rx.buf s.rx.len.toNat = some f → crc16 f.covered ≠ f.received →
    ∃ t, exec .dispatch s = .next t ∧ exec (.error .crc f.seq) s = .next t ∧
      t = { s with tx := t.tx, trace := t.trace } ∧ t.accesses = s.accesses

/-- Once the CRC has matched, the command byte alone selects the handler (R122, R123, R124). -/
def Obligations.GoodFrameIsRouted : Prop :=
  ∀ (s : State) (f : RxFrame), Running s → s.tx.state = .idle →
    frameIn s.rx.buf s.rx.len.toNat = some f → crc16 f.covered = f.received →
    exec .dispatch s =
      if f.cmd = s.cfg.cmdRead then exec (.read f.seq f.payload) s
      else if f.cmd = s.cfg.cmdWrite then exec (.write f.seq f.payload) s
      else if f.cmd = s.cfg.cmdPing then exec (.ping f.seq f.payload) s
      else exec (.unknown f.cmd f.seq f.payload) s

/-- DISPATCH completes: a good PING frame is answered with a pong that echoes its sequence byte (R120, R122, R125, D24). -/
def Obligations.DispatchedPingAnswersPong : Prop :=
  ∀ (s : State) (f : RxFrame), Running s → s.tx.state = .idle →
    frameIn s.rx.buf s.rx.len.toNat = some f → crc16 f.covered = f.received → f.cmd = s.cfg.cmdPing →
    ∃ t, exec .dispatch s = .next t ∧ Answers s t .pong f.seq []

/-- Every completed frame that raises no fault yields exactly one response frame, with the frame's own sequence byte (R128, which
the spec derives). -/
def Obligations.OneResponsePerCompletedFrame : Prop :=
  ∀ (s t : State), s.Inv → exec .dispatch s = .next t → t.fault = none →
    ∃ (f : RxFrame) (c : RespCode) (payload : List Byte),
      frameIn s.rx.buf s.rx.len.toNat = some f ∧ payload.length ≤ s.cfg.maxPayload ∧
      t.tx.state = .sending ∧ t.tx.idx = 1 ∧ t.tx.len = 7 + payload.length ∧
      Buf.span? t.tx.buf 0 t.tx.len = some (frameBytes s.cfg (s.cfg.respByte c) f.seq payload) ∧
      t.output = s.output ++ [s.cfg.startMarker]

/-! ### READ -/

/-- READ.FULL (R139). Room for the value: `size` raw bytes are read at ascending addresses and staged in order. No room: the error
response, before any read. An address that is not served: MEM_UNMAPPED at the first such byte, the reads before it standing.
Whatever the target program stores before each access (R51, D16) is what the next read sees. -/
def Obligations.ReadFullStagesRawBytes : Prop :=
  ∀ (seq : Byte) (n : Nat) (a : Addr) (size : Half) (w : Byte) (s : State), Running s → s.Inv → s.tx.state = .idle →
    (n + size.toNat > s.cfg.maxPayload →
      exec (.readFull seq n a size w) s = exec (.error .invalidSize seq) s) ∧
    (n + size.toNat ≤ s.cfg.maxPayload → servesAll s.cfg (spanAddrs a size.toNat) →
      ∃ (vs : List Byte) (t : State), exec (.readFull seq n a size w) s = .next t ∧
        vs = turnReads s.mem s.target a size.toNat ∧ vs.length = size.toNat ∧
        (∀ j, j < size.toNat → Buf.cell? t.tx.buf (5 + n + j) = vs[j]?) ∧
        (∀ j, j < 5 + n ∨ 5 + n + size.toNat ≤ j → Buf.cell? t.tx.buf j = Buf.cell? s.tx.buf j) ∧
        t = { s with tx := { s.tx with buf := t.tx.buf }, mem := targetMem s.mem (s.target.take size.toNat),
                     target := s.target.drop size.toNat,
                     trace := s.trace ++ List.zipWith Obs.memRead (spanAddrs a size.toNat) vs } ∧
        (s.target = [] → t.mem = s.mem ∧ vs = (spanAddrs a size.toNat).map s.byteAt)) ∧
    (∀ j, n + size.toNat ≤ s.cfg.maxPayload → j < size.toNat → servesAll s.cfg (spanAddrs a j) →
      s.cfg.serves (a + BitVec.ofNat 32 j) = false →
      ∃ t : State, exec (.readFull seq n a size w) s = .next t ∧ t.fault = some .memUnmapped ∧
        t.mem = targetMem s.mem (s.target.take j) ∧ t.target = s.target.drop j ∧
        t.trace = s.trace ++ List.zipWith Obs.memRead (spanAddrs a j) (turnReads s.mem s.target a j))

/-- READ.BIT (R140): one byte is read, and the field, right-aligned, is staged. No room: the error response, with no read. Not
served: MEM_UNMAPPED and nothing else. What the target program stores before the access (R51, D16) is what the read sees. -/
def Obligations.ReadBitStagesField : Prop :=
  ∀ (seq : Byte) (n : Nat) (a : Addr) (size : Half) (off w : Byte) (s : State), Running s → s.Inv → s.tx.state = .idle →
    (n + 1 > s.cfg.maxPayload → exec (.readBit seq n a size off w) s = exec (.error .invalidSize seq) s) ∧
    (n + 1 ≤ s.cfg.maxPayload → s.cfg.serves a = true →
      ∃ (byte : Byte) (t : State), exec (.readBit seq n a size off w) s = .next t ∧
        t = { s with tx := { s.tx with buf := s.tx.buf.set (5 + n) (some (extractField byte off w)) },
                     mem := targetMem s.mem (s.target.take 1), target := s.target.drop 1,
                     trace := s.trace ++ [.memRead a byte] } ∧
        byte = t.byteAt a ∧ (s.target = [] → t.mem = s.mem ∧ t.target = [])) ∧
    (n + 1 ≤ s.cfg.maxPayload → s.cfg.serves a = false →
      exec (.readBit seq n a size off w) s = .next { s with fault := some .memUnmapped })

/-- READ validation (R137): an empty payload (the spec's own choice D23), a count of 0 or above MAX_VARS, and a payload shorter than
`1 + 8·count` are each answered with ERR_INVALID_SIZE and nothing else. -/
def Obligations.ReadValidationErrors : Prop :=
  ∀ (seq : Byte) (payload : List Byte) (s : State), Running s → s.tx.state = .idle →
    (payload = [] ∨ (∃ count rest, payload = count :: rest ∧
      (count.toNat = 0 ∨ count.toNat > s.cfg.maxVars ∨ payload.length < 1 + 8 * count.toNat))) →
    exec (.read seq payload) s = exec (.error .invalidSize seq) s

/-- READ (R137, R138, R142): a request for descriptors that are served and fit is answered with a read response whose payload is
the count and the descriptors' values, in array order; exactly their bytes are read, in order; trailing bytes are ignored (D22);
bitfields of every offset and width follow D18. The target program does not write meanwhile (R51). -/
def Obligations.ReadAnswersValues : Prop :=
  ∀ (seq : Byte) (ds : List Desc) (trailing : List Byte) (s : State), Running s → s.Inv → s.tx.state = .idle →
    s.target = [] → 1 ≤ ds.length → ds.length ≤ s.cfg.maxVars →
    1 + (ds.flatMap (descValue s.mem)).length ≤ s.cfg.maxPayload →
    (∀ d ∈ ds, servesAll s.cfg (descAddrs d)) →
    ∃ t, exec (.read seq (BitVec.ofNat 8 ds.length :: (ds.flatMap descBytes ++ trailing))) s = .next t ∧
      Answers { s with trace := s.trace ++ ds.flatMap (descReads s.mem) } t .readResp seq
        (BitVec.ofNat 8 ds.length :: ds.flatMap (descValue s.mem))

/-- READ over capacity (R141; the check before the reads and the check for bitfields are the spec's own choice D20): the request is
answered with ERR_INVALID_SIZE; only the descriptors before the failing one have been read, and no partial response is sent. -/
def Obligations.ReadOverCapacityAborts : Prop :=
  ∀ (seq : Byte) (pre : List Desc) (d : Desc) (post : List Desc) (trailing : List Byte) (s : State), Running s → s.Inv →
    s.tx.state = .idle → s.target = [] → (pre ++ d :: post).length ≤ s.cfg.maxVars →
    1 + (pre.flatMap (descValue s.mem)).length ≤ s.cfg.maxPayload →
    1 + (pre.flatMap (descValue s.mem)).length + (descValue s.mem d).length > s.cfg.maxPayload →
    (∀ e ∈ pre, servesAll s.cfg (descAddrs e)) →
    ∃ t, exec (.read seq (BitVec.ofNat 8 (pre ++ d :: post).length ::
        ((pre ++ d :: post).flatMap descBytes ++ trailing))) s = .next t ∧
      Answers { s with trace := s.trace ++ pre.flatMap (descReads s.mem) } t .error seq [s.cfg.errInvalidSize]

/-- READ, READ.FULL and READ.BIT change only the Transmit Context, the trace and the fault mark, and use up the target program's
turns; they write no target memory (R46, R143 (d)): every byte the target program does not write reads as before. -/
def Obligations.ReadFamilyFrame : Prop :=
  ∀ (i : Instr) (s t : State),
    ((∃ seq payload, i = .read seq payload) ∨ (∃ seq n a size w, i = .readFull seq n a size w) ∨
      (∃ seq n a size off w, i = .readBit seq n a size off w)) →
    exec i s = .next t →
    t.cfg = s.cfg ∧ t.rx = s.rx ∧ t.emitter = s.emitter ∧ t.init = s.init ∧ t.pending = s.pending ∧
      (∃ new, t.trace = s.trace ++ new ∧ ∀ o ∈ new, o.isWrite = false) ∧
      ∀ a, s.targetLeaves a → t.byteAt a = s.byteAt a

/-- The bitfield arithmetic, bit by bit (R136; natural-number arithmetic for every offset and width is the spec's own choice D18):
extraction shifts the field down and clears the rest; insertion changes only bits `off .. off+w-1` of the byte. -/
def Obligations.BitfieldBits : Prop :=
  ∀ (old v off w : Byte) (i : Nat), i < 8 →
    (extractField old off w).getLsbD i = (decide (i < w.toNat) && old.getLsbD (off.toNat + i)) ∧
    (insertField old v off w).getLsbD i =
      if off.toNat ≤ i ∧ i < off.toNat + w.toNat then v.getLsbD (i - off.toNat) else old.getLsbD i

/-! ### WRITE -/

/-- WRITE.FULL (R147). Enough data: the bytes are stored verbatim at ascending addresses. Too little: the error response, before
any write. An address that is not served: MEM_UNMAPPED at the first such byte, the bytes before it written. Memory is that of
these stores with the target program's own stores between them (R51, D16). -/
def Obligations.WriteFullStoresVerbatim : Prop :=
  ∀ (seq : Byte) (a : Addr) (size : Half) (w : Byte) (rest : List Byte) (s : State), Running s → s.tx.state = .idle →
    (rest.length < size.toNat →
      exec (.writeFull seq a size w rest) s = exec (.error .invalidSize seq) s) ∧
    (size.toNat ≤ rest.length → servesAll s.cfg (spanAddrs a size.toNat) →
      ∃ t, exec (.writeFull seq a size w rest) s = .next t ∧
        t = { s with mem := storeTurns s.mem s.target a (rest.take size.toNat), target := s.target.drop size.toNat,
                     trace := s.trace ++ List.zipWith Obs.memWrite (spanAddrs a size.toNat) rest } ∧
        (s.target = [] → t.mem = storeBytes s.mem a (rest.take size.toNat))) ∧
    (∀ j, size.toNat ≤ rest.length → j < size.toNat → servesAll s.cfg (spanAddrs a j) →
      s.cfg.serves (a + BitVec.ofNat 32 j) = false →
      ∃ t, exec (.writeFull seq a size w rest) s = .next t ∧
        t = { s with mem := storeTurns s.mem s.target a (rest.take j), target := s.target.drop j,
                     fault := some .memUnmapped,
                     trace := s.trace ++ List.zipWith Obs.memWrite (spanAddrs a j) rest } ∧
        (s.target = [] → t.mem = storeBytes s.mem a (rest.take j)))

/-- WRITE.BIT (R148): exactly one data byte is consumed, then one MemRead and one MemWrite of the inserted byte, even for an empty
mask (the spec's own choice D19). No data byte: the error response. Not served: MEM_UNMAPPED and nothing else. Whatever the
target program stores before the read and between the two (R47, R51), the inserted byte is what stands there afterwards. -/
def Obligations.WriteBitReadsModifiesWrites : Prop :=
  ∀ (seq : Byte) (a : Addr) (size : Half) (off w : Byte) (s : State), Running s → s.tx.state = .idle →
    exec (.writeBit seq a size off w []) s = exec (.error .invalidSize seq) s ∧
    (∀ v rest, s.cfg.serves a = true →
      ∃ (old : Byte) (t : State), exec (.writeBit seq a size off w (v :: rest)) s = .next t ∧
        old = Memory.read (targetMem s.mem (s.target.take 1)) a.toNat ∧
        t = { s with mem := Memory.write (targetMem s.mem (s.target.take 2)) a.toNat (insertField old v off w),
                     target := s.target.drop 2,
                     trace := s.trace ++ [.memRead a old, .memWrite a (insertField old v off w)] } ∧
        (s.Inv → t.byteAt a = insertField old v off w) ∧
        (s.target = [] → old = s.byteAt a ∧ t.mem = Memory.write s.mem a.toNat (insertField old v off w))) ∧
    (∀ v rest, s.cfg.serves a = false →
      exec (.writeBit seq a size off w (v :: rest)) s = .next { s with fault := some .memUnmapped })

/-- WRITE validation (R145): an empty payload (the spec's own choice D23) and a count of 0 or above MAX_VARS are each answered with
ERR_INVALID_SIZE, with no memory access. -/
def Obligations.WriteValidationErrors : Prop :=
  ∀ (seq : Byte) (payload : List Byte) (s : State), Running s → s.tx.state = .idle →
    (payload = [] ∨ (∃ count rest, payload = count :: rest ∧ (count.toNat = 0 ∨ count.toNat > s.cfg.maxVars))) →
    exec (.write seq payload) s = exec (.error .invalidSize seq) s

/-- WRITE (R145, R150): a request whose elements are whole and served has all of them applied, left to right, and is answered with
ERR_OK (D40); trailing bytes are ignored (D21); bitfields of every offset and width follow D18. The target program does not write meanwhile (R51). -/
def Obligations.WriteAppliesElements : Prop :=
  ∀ (seq : Byte) (es : List WriteElem) (trailing : List Byte) (s : State), Running s → s.Inv → s.tx.state = .idle →
    s.target = [] → 1 ≤ es.length → es.length ≤ s.cfg.maxVars →
    (∀ e ∈ es, e.whole = true ∧ servesAll s.cfg (descAddrs e.desc)) →
    ∃ t, exec (.write seq (BitVec.ofNat 8 es.length :: (es.flatMap WriteElem.bytes ++ trailing))) s = .next t ∧
      Answers { s with mem := storeElems s.mem es, trace := s.trace ++ storeEvents s.mem es } t .writeResp seq
        [s.cfg.errOk]

/-- WRITE without rollback (R149): when the payload falls short after some whole elements, those elements stand, nothing after them is
accessed, and the error response ERR_INVALID_SIZE is the only response. That a payload shorter than `1 + 8·count` gets as far as its whole elements
is the spec's own choice D21 (no up-front length test); bitfields of every offset and width follow D18. The target program does
not write meanwhile (R51). -/
def Obligations.ShortWriteIsNotRolledBack : Prop :=
  ∀ (seq count : Byte) (es : List WriteElem) (short : List Byte) (s : State), Running s → s.Inv → s.tx.state = .idle →
    s.target = [] → es.length < count.toNat → count.toNat ≤ s.cfg.maxVars →
    (∀ e ∈ es, e.whole = true ∧ servesAll s.cfg (descAddrs e.desc)) → shortOfElem short →
    ∃ t, exec (.write seq (count :: (es.flatMap WriteElem.bytes ++ short))) s = .next t ∧
      exec (.error .invalidSize seq)
        { s with mem := storeElems s.mem es, trace := s.trace ++ storeEvents s.mem es } = .next t

/-- Storing bytes from an address on: each is read back at its address modulo 2^32 (R42, D14), every other byte of memory is as
before, and memory keeps its canonical form (R44, R147). -/
def Obligations.StoredBytesReadBack : Prop :=
  ∀ (m : Memory) (a : Addr) (vs : List Byte), Memory.wf m = true → vs.length ≤ 65535 →
    Memory.wf (storeBytes m a vs) = true ∧
    (∀ j, j < vs.length → some (Memory.read (storeBytes m a vs) (a + BitVec.ofNat 32 j).toNat) = vs[j]?) ∧
    ∀ b : Addr, b ∉ spanAddrs a vs.length → Memory.read (storeBytes m a vs) b.toNat = Memory.read m b.toNat

/-- WRITE, WRITE.FULL and WRITE.BIT leave the Receive Context, the parameters and the capability alone, and every byte of target
memory outside the addresses their elements name (R46, R48), if the target program does not write it. -/
def Obligations.WriteFamilyFrame : Prop :=
  ∀ (i : Instr) (stored : List Addr) (s t : State),
    ((∃ seq payload, i = .write seq payload ∧ stored = writeAddrs payload) ∨
      (∃ seq a size w rest, i = .writeFull seq a size w rest ∧ stored = spanAddrs a size.toNat) ∨
      (∃ seq a size off w rest, i = .writeBit seq a size off w rest ∧ stored = [a])) →
    exec i s = .next t →
    t.cfg = s.cfg ∧ t.rx = s.rx ∧ t.emitter = s.emitter ∧ t.init = s.init ∧ t.pending = s.pending ∧
      ∀ a, a ∉ stored → s.targetLeaves a → t.byteAt a = s.byteAt a

/-- A variable written and then read with the same descriptor comes back (R143 (e), which the spec derives), when no other agent
writes target memory: a full variable unchanged; a bitfield cut to the bits of its field that lie in the byte (offsets and widths
beyond the byte follow the spec's own choice D18). -/
def Obligations.WriteThenReadRoundTrips : Prop :=
  ∀ (seq seq' : Byte) (d : Desc) (data : List Byte) (s : State), Running s → s.Inv → s.tx.state = .idle → s.target = [] →
    data.length = descDataLen d → 1 + data.length ≤ s.cfg.maxPayload → servesAll s.cfg (descAddrs d) →
    ∃ (t u v : State) (values : List Byte), exec (.write seq (1 :: (descBytes d ++ data))) s = .next t ∧
      slots 7 t = .next u ∧ exec (.read seq' (1 :: descBytes d)) u = .next v ∧
      v.tx.state = .sending ∧ v.tx.len = 8 + data.length ∧
      Buf.span? v.tx.buf 0 (8 + data.length) = some (frameBytes s.cfg s.cfg.cmdReadResp seq' (1 :: values)) ∧
      (descIsFull d = true → values = data) ∧
      (descIsFull d = false → ∃ x y : Byte, data = [x] ∧ values = [y] ∧ ∀ i, i < 8 →
        y.getLsbD i = (decide (i < d.bitSize.toNat) && decide (d.bitOffset.toNat + i < 8) && x.getLsbD i))

/-! ### The machine as a whole -/

/-- A step delivers the oldest pending operation to the block, once; with none pending the block keeps all state (R7, R216). -/
def Obligations.StepRunsNextDelivery : Prop :=
  ∀ (i : Instr) (later : List Instr) (s : State), s.fault = none →
    (s.pending = i :: later → i.wf s.cfg = true → step s = exec i { s with pending := later }) ∧
    (s.pending = [] → step s = .next s)

/-- The operation read from a table word is the one the very next step runs (the port is the model's choice, log 4 and log 11). -/
def Obligations.FetchWordIsRunNext : Prop :=
  ∀ (i : Instr) (nbits w : Nat) (s : State), s.fault = none → decodeTableWord nbits w = some i → i.wf s.cfg = true →
    step (s.withFetchWord nbits w) = exec i s

/-- The state right after initialize meets the invariant, for every configuration (R36; the spec's own choice D27). -/
def Obligations.ResetMeetsInvariant : Prop :=
  ∀ (p : Params) (e : Emitter), (State.resetWith p e).Inv

/-- Every step keeps the invariant: canonical memory, and the contexts as R22 to R28 and R110 describe them. -/
def Obligations.StepKeepsInvariant : Prop :=
  ∀ s t : State, s.Inv → step s = .next t → t.Inv

/-- No entry point, from a state that meets the invariant, reads an unwritten buffer cell, writes outside a buffer or reads past a
payload (R110 and R106, which the spec derives): the only stop is that of a faulted block. -/
def Obligations.EntryPointsNeverMisuseBuffers : Prop :=
  ∀ (i : Instr) (s : State) (f : Fault), s.Inv → i.isEntry = true → exec i s = .fault f → ∃ k, f = .stuck k

/-- No operation writes the parameters (R30), none but initialize writes the capability or the init mark (R31, R32), and the trace only
grows. -/
def Obligations.ConfigurationIsConstant : Prop :=
  ∀ (i : Instr) (s t : State), exec i s = .next t →
    t.cfg = s.cfg ∧ t.pending = s.pending ∧ (∃ new, t.trace = s.trace ++ new) ∧
      ((∀ e, i ≠ .init e) → t.emitter = s.emitter ∧ t.init = s.init)

/-- The operations that reach no target memory leave all of it alone, and the target program's turns with it (R46); all of them but
INIT leave the Receive Context too. -/
def Obligations.RegisterOnlyFrame : Prop :=
  ∀ (i : Instr) (s t : State),
    ((∃ e, i = .init e) ∨ i = .txslot ∨ i = .busy ∨ i = .version ∨ (∃ seq payload, i = .ping seq payload) ∨
      (∃ cmd seq payload, i = .unknown cmd seq payload) ∨ (∃ bytes, i = .crc16 bytes) ∨
      (∃ c seq n, i = .encode c seq n) ∨ (∃ seq count values, i = .readResp seq count values) ∨
      (∃ seq, i = .writeResp seq) ∨ (∃ seq, i = .pong seq) ∨ (∃ code seq, i = .error code seq)) →
    exec i s = .next t →
    t.mem = s.mem ∧ t.target = s.target ∧ t.accesses = s.accesses ∧ ((∀ e, i ≠ .init e) → t.rx = s.rx)

/-- A received byte that completes no frame changes the Receive Context only (R100, R37, R114). -/
def Obligations.IncompleteRxFrame : Prop :=
  ∀ (b : Byte) (s t : State), s.rx.state ≠ .crcHigh → exec (.rx b) s = .next t → t = { s with rx := t.rx }

/-- Only the RX that completes a frame can raise a fault (R203, R108): TX_OVERRUN exactly when the transmitter is Sending (R240, D12),
otherwise MEM_UNMAPPED, for a frame with a good CRC that asks for READ or WRITE (D15). -/
def Obligations.OnlyCompletedFramesRaiseFaults : Prop :=
  ∀ (i : Instr) (s t : State) (k : FaultKind), i.isEntry = true → exec i s = .next t → t.fault = some k →
    ∃ b, i = .rx b ∧ s.rx.state = .crcHigh ∧
      (k = .txOverrun ↔ s.tx.state = .sending) ∧
      (k = .memUnmapped → ∃ f, frameIn (s.rx.buf.set (6 + s.rx.len.toNat) (some b)) s.rx.len.toNat = some f ∧
        crc16 f.covered = f.received ∧ (f.cmd = s.cfg.cmdRead ∨ f.cmd = s.cfg.cmdWrite))

/-! ### Encodings -/

/-- Decoding the encoding of any well-formed operation gives it back, every operand at every value (the selector byte is the model's
choice, log 11; the frames and descriptors are R60 to R71's). -/
def Obligations.DecodeInvertsEncode : Prop :=
  ∀ (p : Params) (i : Instr), p.ok = true → i.wf p = true → decode p (encode p i) = .ok i

/-- A byte string that reads as a frame is the frame of its own fields, and of no others (R60 to R64): one meaning for each word. -/
def Obligations.FrameHasOneReading : Prop :=
  ∀ (p : Params) (bs : List Byte) (f : RawFrame), decodeFrame p bs = .ok f →
    bs = frameBytes p f.cmd f.seq f.payload ∧ f.payload.length ≤ p.maxPayload ∧
      ∀ (cmd seq : Byte) (payload : List Byte), bs = frameBytes p cmd seq payload → f = ⟨cmd, seq, payload⟩

/-- The descriptor's fields (R65, R135): little-endian address and size, the two bit fields verbatim; eight bytes, and the rest after
them. -/
def Obligations.DescriptorFieldsAreLittleEndian : Prop :=
  ∀ (d0 d1 d2 d3 d4 d5 d6 d7 : Byte) (rest : List Byte),
    ∃ d, parseDesc (d0 :: d1 :: d2 :: d3 :: d4 :: d5 :: d6 :: d7 :: rest) = some (d, rest) ∧
      d.addr.toNat = d0.toNat + 2 ^ 8 * d1.toNat + 2 ^ 16 * d2.toNat + 2 ^ 24 * d3.toNat ∧
      d.size.toNat = d4.toNat + 2 ^ 8 * d5.toNat ∧ d.bitOffset = d6 ∧ d.bitSize = d7 ∧
      descBytes d = [d0, d1, d2, d3, d4, d5, d6, d7]

/-- The frame's fields at their offsets (R60), the CRC over exactly the bytes before it (R63), low byte first (R62). -/
def Obligations.FrameLayout : Prop :=
  ∀ (p : Params) (cmd seq : Byte) (payload : List Byte), payload.length ≤ 65535 →
    let F := frameBytes p cmd seq payload
    let L := payload.length
    F.length = 7 + L ∧ F[0]? = some p.startMarker ∧
      (∃ l0 l1, F[1]? = some l0 ∧ F[2]? = some l1 ∧ l0.toNat + 2 ^ 8 * l1.toNat = L) ∧
      F[3]? = some cmd ∧ F[4]? = some seq ∧ (F.drop 5).take L = payload ∧
      ∃ c0 c1, F[5 + L]? = some c0 ∧ F[6 + L]? = some c1 ∧
        c0.toNat + 2 ^ 8 * c1.toNat = (crc16 (F.take (5 + L))).toNat

/-- The residue (R94, which the spec derives): a CRC appended high byte first makes the CRC of the whole string zero. -/
def Obligations.CrcResidueIsZero : Prop :=
  ∀ s : List Byte, crc16 (s ++ [hi8 (crc16 s).toNat, lo8 (crc16 s).toNat]) = 0

/-- The CRC tells apart any two strings that differ in one byte, so a request with one corrupted covered byte and an intact CRC field
is answered with the CRC error (a consequence of R90 and R121). -/
def Obligations.CrcSeesOneChangedByte : Prop :=
  ∀ (pre post : List Byte) (b b' : Byte), b ≠ b' → crc16 (pre ++ b :: post) ≠ crc16 (pre ++ b' :: post)

/-- A few words of each family, written out from the spec's encodings and vectors, decode to what they stand for under RC (sanity). -/
def Obligations.SampleWordsDecode : Prop :=
  decode .rc [8, 0xAA, 0x00, 0x00, 0x03, 0x05, 0x30, 0x78] = .ok (.ping 0x05 []) ∧
  decode .rc [8, 0xAA, 0x00, 0x00, 0x42, 0x07, 0x8F, 0x66] = .ok (.unknown 0x42 0x07 []) ∧
  decode .rc [9, 0xAA, 0x01, 0x00, 0x82, 0x22, 0x00, 0xD5, 0xF6] = .ok (.writeResp 0x22) ∧
  decode .rc [10, 0x15, 0x01, 0x00, 0x04, 0x00, 0x00, 0x20, 0x00, 0x00, 0x05, 0x03] =
    .ok (.readBit 0x15 1 0x20000004 0 5 3) ∧
  decode .rc [1, 0xAA] = .ok (.rx 0xAA)
end

