-- ==== Sys2Proof/Laws/State.lean ====
section
/-! SUPPORT. One lemma per field of State per update, true by rfl, so that no proof unfolds a record update. -/

namespace Sys2Proof.Machine

open Sys2Proof

variable (s : State)

@[simp] theorem withRx_cfg (r : RxCtx) : (s.withRx r).cfg = s.cfg := rfl
@[simp] theorem withRx_rx (r : RxCtx) : (s.withRx r).rx = r := rfl
@[simp] theorem withRx_tx (r : RxCtx) : (s.withRx r).tx = s.tx := rfl
@[simp] theorem withRx_emitter (r : RxCtx) : (s.withRx r).emitter = s.emitter := rfl
@[simp] theorem withRx_init (r : RxCtx) : (s.withRx r).init = s.init := rfl
@[simp] theorem withRx_fault (r : RxCtx) : (s.withRx r).fault = s.fault := rfl
@[simp] theorem withRx_mem (r : RxCtx) : (s.withRx r).mem = s.mem := rfl
@[simp] theorem withRx_pending (r : RxCtx) : (s.withRx r).pending = s.pending := rfl
@[simp] theorem withRx_target (r : RxCtx) : (s.withRx r).target = s.target := rfl
@[simp] theorem withRx_trace (r : RxCtx) : (s.withRx r).trace = s.trace := rfl

@[simp] theorem withTx_cfg (t : TxCtx) : (s.withTx t).cfg = s.cfg := rfl
@[simp] theorem withTx_rx (t : TxCtx) : (s.withTx t).rx = s.rx := rfl
@[simp] theorem withTx_tx (t : TxCtx) : (s.withTx t).tx = t := rfl
@[simp] theorem withTx_emitter (t : TxCtx) : (s.withTx t).emitter = s.emitter := rfl
@[simp] theorem withTx_init (t : TxCtx) : (s.withTx t).init = s.init := rfl
@[simp] theorem withTx_fault (t : TxCtx) : (s.withTx t).fault = s.fault := rfl
@[simp] theorem withTx_mem (t : TxCtx) : (s.withTx t).mem = s.mem := rfl
@[simp] theorem withTx_pending (t : TxCtx) : (s.withTx t).pending = s.pending := rfl
@[simp] theorem withTx_target (t : TxCtx) : (s.withTx t).target = s.target := rfl
@[simp] theorem withTx_trace (t : TxCtx) : (s.withTx t).trace = s.trace := rfl

@[simp] theorem withMem_cfg (m : Memory) : (s.withMem m).cfg = s.cfg := rfl
@[simp] theorem withMem_rx (m : Memory) : (s.withMem m).rx = s.rx := rfl
@[simp] theorem withMem_tx (m : Memory) : (s.withMem m).tx = s.tx := rfl
@[simp] theorem withMem_emitter (m : Memory) : (s.withMem m).emitter = s.emitter := rfl
@[simp] theorem withMem_init (m : Memory) : (s.withMem m).init = s.init := rfl
@[simp] theorem withMem_fault (m : Memory) : (s.withMem m).fault = s.fault := rfl
@[simp] theorem withMem_mem (m : Memory) : (s.withMem m).mem = m := rfl
@[simp] theorem withMem_pending (m : Memory) : (s.withMem m).pending = s.pending := rfl
@[simp] theorem withMem_target (m : Memory) : (s.withMem m).target = s.target := rfl
@[simp] theorem withMem_trace (m : Memory) : (s.withMem m).trace = s.trace := rfl

@[simp] theorem withTarget_cfg (ts : List (List TargetStore)) : (s.withTarget ts).cfg = s.cfg := rfl
@[simp] theorem withTarget_rx (ts : List (List TargetStore)) : (s.withTarget ts).rx = s.rx := rfl
@[simp] theorem withTarget_tx (ts : List (List TargetStore)) : (s.withTarget ts).tx = s.tx := rfl
@[simp] theorem withTarget_emitter (ts : List (List TargetStore)) : (s.withTarget ts).emitter = s.emitter := rfl
@[simp] theorem withTarget_init (ts : List (List TargetStore)) : (s.withTarget ts).init = s.init := rfl
@[simp] theorem withTarget_fault (ts : List (List TargetStore)) : (s.withTarget ts).fault = s.fault := rfl
@[simp] theorem withTarget_mem (ts : List (List TargetStore)) : (s.withTarget ts).mem = s.mem := rfl
@[simp] theorem withTarget_pending (ts : List (List TargetStore)) : (s.withTarget ts).pending = s.pending := rfl
@[simp] theorem withTarget_target (ts : List (List TargetStore)) : (s.withTarget ts).target = ts := rfl
@[simp] theorem withTarget_trace (ts : List (List TargetStore)) : (s.withTarget ts).trace = s.trace := rfl

@[simp] theorem withPending_cfg (q : List Instr) : (s.withPending q).cfg = s.cfg := rfl
@[simp] theorem withPending_rx (q : List Instr) : (s.withPending q).rx = s.rx := rfl
@[simp] theorem withPending_tx (q : List Instr) : (s.withPending q).tx = s.tx := rfl
@[simp] theorem withPending_emitter (q : List Instr) : (s.withPending q).emitter = s.emitter := rfl
@[simp] theorem withPending_init (q : List Instr) : (s.withPending q).init = s.init := rfl
@[simp] theorem withPending_fault (q : List Instr) : (s.withPending q).fault = s.fault := rfl
@[simp] theorem withPending_mem (q : List Instr) : (s.withPending q).mem = s.mem := rfl
@[simp] theorem withPending_pending (q : List Instr) : (s.withPending q).pending = q := rfl
@[simp] theorem withPending_target (q : List Instr) : (s.withPending q).target = s.target := rfl
@[simp] theorem withPending_trace (q : List Instr) : (s.withPending q).trace = s.trace := rfl

@[simp] theorem observe_cfg (o : Obs) : (s.observe o).cfg = s.cfg := rfl
@[simp] theorem observe_rx (o : Obs) : (s.observe o).rx = s.rx := rfl
@[simp] theorem observe_tx (o : Obs) : (s.observe o).tx = s.tx := rfl
@[simp] theorem observe_emitter (o : Obs) : (s.observe o).emitter = s.emitter := rfl
@[simp] theorem observe_init (o : Obs) : (s.observe o).init = s.init := rfl
@[simp] theorem observe_fault (o : Obs) : (s.observe o).fault = s.fault := rfl
@[simp] theorem observe_mem (o : Obs) : (s.observe o).mem = s.mem := rfl
@[simp] theorem observe_pending (o : Obs) : (s.observe o).pending = s.pending := rfl
@[simp] theorem observe_target (o : Obs) : (s.observe o).target = s.target := rfl
@[simp] theorem observe_trace (o : Obs) : (s.observe o).trace = s.trace ++ [o] := rfl

@[simp] theorem raised_cfg (k : FaultKind) : (s.raised k).cfg = s.cfg := rfl
@[simp] theorem raised_rx (k : FaultKind) : (s.raised k).rx = s.rx := rfl
@[simp] theorem raised_tx (k : FaultKind) : (s.raised k).tx = s.tx := rfl
@[simp] theorem raised_emitter (k : FaultKind) : (s.raised k).emitter = s.emitter := rfl
@[simp] theorem raised_init (k : FaultKind) : (s.raised k).init = s.init := rfl
@[simp] theorem raised_fault (k : FaultKind) : (s.raised k).fault = some k := rfl
@[simp] theorem raised_mem (k : FaultKind) : (s.raised k).mem = s.mem := rfl
@[simp] theorem raised_pending (k : FaultKind) : (s.raised k).pending = s.pending := rfl
@[simp] theorem raised_target (k : FaultKind) : (s.raised k).target = s.target := rfl
@[simp] theorem raised_trace (k : FaultKind) : (s.raised k).trace = s.trace := rfl

@[simp] theorem emit_cfg (b : Byte) : (emit b s).cfg = s.cfg := rfl
@[simp] theorem emit_rx (b : Byte) : (emit b s).rx = s.rx := rfl
@[simp] theorem emit_tx (b : Byte) : (emit b s).tx = s.tx := rfl
@[simp] theorem emit_emitter (b : Byte) : (emit b s).emitter = s.emitter := rfl
@[simp] theorem emit_init (b : Byte) : (emit b s).init = s.init := rfl
@[simp] theorem emit_fault (b : Byte) : (emit b s).fault = s.fault := rfl
@[simp] theorem emit_mem (b : Byte) : (emit b s).mem = s.mem := rfl
@[simp] theorem emit_pending (b : Byte) : (emit b s).pending = s.pending := rfl
@[simp] theorem emit_target (b : Byte) : (emit b s).target = s.target := rfl
@[simp] theorem emit_trace (b : Byte) : (emit b s).trace = s.trace ++ [.emit s.emitter b] := rfl

@[simp] theorem initBlock_cfg (e : Emitter) : (initBlock e s).cfg = s.cfg := rfl
@[simp] theorem initBlock_rx (e : Emitter) : (initBlock e s).rx = RxCtx.reset s.cfg := rfl
@[simp] theorem initBlock_tx (e : Emitter) : (initBlock e s).tx = TxCtx.reset s.cfg := rfl
@[simp] theorem initBlock_emitter (e : Emitter) : (initBlock e s).emitter = e := rfl
@[simp] theorem initBlock_init (e : Emitter) : (initBlock e s).init = true := rfl
@[simp] theorem initBlock_fault (e : Emitter) : (initBlock e s).fault = s.fault := rfl
@[simp] theorem initBlock_mem (e : Emitter) : (initBlock e s).mem = s.mem := rfl
@[simp] theorem initBlock_pending (e : Emitter) : (initBlock e s).pending = s.pending := rfl
@[simp] theorem initBlock_target (e : Emitter) : (initBlock e s).target = s.target := rfl
@[simp] theorem initBlock_trace (e : Emitter) : (initBlock e s).trace = s.trace := rfl

/-! A context put back is no change. -/

@[simp] theorem withRx_self : s.withRx s.rx = s := rfl
@[simp] theorem withTx_self : s.withTx s.tx = s := rfl
@[simp] theorem withPending_self : s.withPending s.pending = s := rfl
@[simp] theorem withRx_withRx (r r' : RxCtx) : (s.withRx r).withRx r' = s.withRx r' := rfl
@[simp] theorem withTx_withTx (t t' : TxCtx) : (s.withTx t).withTx t' = s.withTx t' := rfl
@[simp] theorem withPending_withPending (q q' : List Instr) : (s.withPending q).withPending q' = s.withPending q' := rfl

end Sys2Proof.Machine
end

