-- ==== Sys2Proof/Laws/Buffers.lean ====
section
/-! SUPPORT. The frame buffers: what a cell, a write, a span and a load give. -/

namespace Sys2Proof.Machine

open Sys2Proof

@[simp] theorem blankBuf_length (cap : Nat) : (blankBuf cap).length = cap := by simp [blankBuf]

@[simp] theorem cell?_blankBuf (cap i : Nat) : Buf.cell? (blankBuf cap) i = none := by
  unfold Buf.cell? blankBuf
  by_cases h : i < cap <;> simp [h]

theorem put?_of_lt {b : Buf} {i : Nat} (v : Byte) (h : i < b.length) : Buf.put? b i v = some (b.set i (some v)) := by
  simp [Buf.put?, h]

theorem put?_some {b b' : Buf} {i : Nat} {v : Byte} (h : Buf.put? b i v = some b') :
    i < b.length ∧ b' = b.set i (some v) := by
  unfold Buf.put? at h
  split at h
  · exact ⟨‹_›, by simpa using h.symm⟩
  · cases h

theorem put?_length {b b' : Buf} {i : Nat} {v : Byte} (h : Buf.put? b i v = some b') : b'.length = b.length := by
  rw [(put?_some h).2]; simp

@[simp] theorem cell?_set_same {b : Buf} {i : Nat} (v : Byte) (h : i < b.length) :
    Buf.cell? (b.set i (some v)) i = some v := by
  simp [Buf.cell?, h]

@[simp] theorem cell?_set_other {b : Buf} {i j : Nat} (v : Byte) (h : i ≠ j) :
    Buf.cell? (b.set i (some v)) j = Buf.cell? b j := by
  simp [Buf.cell?, List.getElem?_set_ne h]

/-- A span succeeds with the bytes of its cells. -/
theorem span?_some {b : Buf} {lo n : Nat} {bs : List Byte} (h : Buf.span? b lo n = some bs) :
    bs.length = n ∧ ∀ i, i < n → Buf.cell? b (lo + i) = bs[i]? := by
  induction n generalizing lo bs with
  | zero => simp [Buf.span?] at h; subst h; simp
  | succ n ih =>
    simp only [Buf.span?] at h
    split at h
    · rename_i v hv
      cases hs : Buf.span? b (lo + 1) n with
      | none => rw [hs] at h; cases h
      | some rest =>
        rw [hs] at h
        simp only [Option.map_some, Option.some.injEq] at h
        subst h
        obtain ⟨hl, hc⟩ := ih hs
        refine ⟨by simp [hl], fun i hi => ?_⟩
        cases i with
        | zero => simpa using hv
        | succ i =>
          have := hc i (by omega)
          rw [show lo + (i + 1) = lo + 1 + i by omega, this]; simp
    · cases h

/-- Cells that hold the bytes of `bs` make a span. -/
theorem span?_of_cells {b : Buf} {lo : Nat} {bs : List Byte} (h : ∀ i, i < bs.length → Buf.cell? b (lo + i) = bs[i]?) :
    Buf.span? b lo bs.length = some bs := by
  induction bs generalizing lo with
  | nil => rfl
  | cons v rest ih =>
    have h0 := h 0 (by simp)
    simp only [Nat.add_zero, List.getElem?_cons_zero] at h0
    have hr : Buf.span? b (lo + 1) rest.length = some rest := ih fun i hi => by
      have := h (i + 1) (by simp; omega)
      rw [show lo + 1 + i = lo + (i + 1) by omega, this]; simp
    simp [Buf.span?, h0, hr]

/-- Written cells make a span. -/
theorem span?_isSome {b : Buf} {lo n : Nat} (h : ∀ i, i < n → (Buf.cell? b (lo + i)).isSome = true) :
    ∃ bs, Buf.span? b lo n = some bs := by
  induction n generalizing lo with
  | zero => exact ⟨[], rfl⟩
  | succ n ih =>
    obtain ⟨v, hv⟩ := Option.isSome_iff_exists.mp (by simpa using h 0 (by omega))
    obtain ⟨rest, hr⟩ := ih (lo := lo + 1) fun i hi => by
      have := h (i + 1) (by omega)
      rwa [show lo + (i + 1) = lo + 1 + i by omega] at this
    exact ⟨v :: rest, by simp [Buf.span?, hv, hr]⟩

/-- A loaded buffer: its length, and its cells. -/
theorem load?_some {cap : Nat} {bytes : List Byte} {b : Buf} (h : Buf.load? cap bytes = some b) :
    b.length = cap ∧ (∀ i, i < bytes.length → Buf.cell? b i = bytes[i]?) ∧
      ∀ i, bytes.length ≤ i → Buf.cell? b i = none := by
  unfold Buf.load? at h
  split at h
  · rename_i hle
    simp only [Option.some.injEq] at h
    subst h
    refine ⟨by simp; omega, fun i hi => ?_, fun i hi => ?_⟩
    · unfold Buf.cell?
      rw [List.getElem?_append_left (by simpa using hi)]
      simp [hi]
    · have : Buf.cell? (blankBuf (cap - bytes.length)) (i - bytes.length) = none := cell?_blankBuf _ _
      unfold Buf.cell? at this ⊢
      rw [List.getElem?_append_right (by simpa using hi)]
      simpa using this
  · cases h

theorem load?_of_le {cap : Nat} {bytes : List Byte} (h : bytes.length ≤ cap) :
    ∃ b, Buf.load? cap bytes = some b := by
  simp [Buf.load?, h]

@[simp] theorem bytes16_length (v : Nat) : (bytes16 v).length = 2 := rfl

@[simp] theorem frameBody_length (p : Params) (cmd seq : Byte) (payload : List Byte) :
    (frameBody p cmd seq payload).length = 5 + payload.length := by
  simp [frameBody]; omega

/-- A frame is `7 + L` bytes (R60). -/
@[simp] theorem frameBytes_length (p : Params) (cmd seq : Byte) (payload : List Byte) :
    (frameBytes p cmd seq payload).length = 7 + payload.length := by
  simp [frameBytes]; omega

/-- A frame's first byte is the marker (R60). -/
theorem frameBytes_head (p : Params) (cmd seq : Byte) (payload : List Byte) :
    (frameBytes p cmd seq payload)[0]? = some p.startMarker := by
  simp [frameBytes, frameBody]

end Sys2Proof.Machine
end

