-- ==== Sys2Proof/Laws/Memory.lean ====
section
/-! SUPPORT. Target memory: reading after writing, and that every memory operation keeps the canonical form. -/

namespace Sys2Proof.Machine

open Sys2Proof

/-- Nothing below the bound of the canonical form is listed. -/
theorem read_below {lo : Nat} {m : Memory} (h : Memory.wfFrom lo m = true) {a : Nat} (ha : a < lo) :
    Memory.read m a = blankByte := by
  induction m generalizing lo with
  | nil => rfl
  | cons c rest ih =>
    obtain ⟨k, w⟩ := c
    simp only [Memory.wfFrom, Bool.and_eq_true, decide_eq_true_eq] at h
    simp only [Memory.read]
    rw [if_neg (by omega)]
    exact ih h.2 (by omega)

theorem wfFrom_mono {lo lo' : Nat} {m : Memory} (h : Memory.wfFrom lo m = true) (hl : lo' ≤ lo) :
    Memory.wfFrom lo' m = true := by
  cases m with
  | nil => rfl
  | cons c rest =>
    simp only [Memory.wfFrom, Bool.and_eq_true, decide_eq_true_eq] at h ⊢
    exact ⟨⟨⟨by omega, h.1.1.2⟩, h.1.2⟩, h.2⟩

/-- A write leaves every other byte as it was. -/
theorem read_write_other {m : Memory} {a b : Nat} (v : Byte) (hab : b ≠ a) :
    Memory.read (Memory.write m a v) b = Memory.read m b := by
  induction m with
  | nil => simp only [Memory.write]; split <;> simp [Memory.read, hab]
  | cons c rest ih =>
    obtain ⟨k, w⟩ := c
    simp only [Memory.write]
    split
    · split <;> simp [Memory.read, hab]
    · split
      · subst k; split <;> simp [Memory.read, hab]
      · simp only [Memory.read]; rw [ih]

/-- In canonical memory, the byte written is the byte read. -/
theorem read_write_same {lo : Nat} {m : Memory} (h : Memory.wfFrom lo m = true) (a : Nat) (v : Byte) :
    Memory.read (Memory.write m a v) a = v := by
  induction m generalizing lo with
  | nil => simp only [Memory.write]; split <;> simp_all [Memory.read]
  | cons c rest ih =>
    obtain ⟨k, w⟩ := c
    simp only [Memory.wfFrom, Bool.and_eq_true, decide_eq_true_eq] at h
    simp only [Memory.write]
    split
    · rename_i hlt
      split
      · rename_i hv
        simp only [Memory.read]
        rw [if_neg (by omega), hv]
        exact read_below h.2 (by omega)
      · simp [Memory.read]
    · split
      · rename_i hk
        subst hk
        split
        · rename_i hv; rw [hv]; exact read_below h.2 (by omega)
        · simp [Memory.read]
      · rename_i hk
        simp only [Memory.read, if_neg hk]
        exact ih h.2

theorem write_wfFrom {lo : Nat} {m : Memory} (h : Memory.wfFrom lo m = true) {a : Nat} (hlo : lo ≤ a)
    (ha : a < 2 ^ 32) (v : Byte) : Memory.wfFrom lo (Memory.write m a v) = true := by
  induction m generalizing lo with
  | nil => simp only [Memory.write]; split <;> simp_all [Memory.wfFrom]
  | cons c rest ih =>
    obtain ⟨k, w⟩ := c
    have h' := h
    simp only [Memory.wfFrom, Bool.and_eq_true, decide_eq_true_eq] at h'
    simp only [Memory.write]
    split
    · split
      · exact h
      · simp only [Memory.wfFrom, Bool.and_eq_true, decide_eq_true_eq]
        exact ⟨⟨⟨hlo, ha⟩, ‹_›⟩, ⟨⟨⟨by omega, h'.1.1.2⟩, h'.1.2⟩, h'.2⟩⟩
    · split
      · rename_i hk
        subst hk
        split
        · exact wfFrom_mono h'.2 (by omega)
        · simp only [Memory.wfFrom, Bool.and_eq_true, decide_eq_true_eq]
          exact ⟨⟨⟨hlo, ha⟩, ‹_›⟩, h'.2⟩
      · simp only [Memory.wfFrom, Bool.and_eq_true, decide_eq_true_eq]
        exact ⟨h'.1, ih h'.2 (by omega)⟩

/-- A write at a u32 address keeps the canonical form. -/
theorem write_wf {m : Memory} (h : Memory.wf m = true) (a : Addr) (v : Byte) :
    Memory.wf (Memory.write m a.toNat v) = true :=
  write_wfFrom h (Nat.zero_le _) a.isLt v

theorem storeAll_wf {m : Memory} (h : Memory.wf m = true) (stores : List TargetStore) :
    Memory.wf (storeAll m stores) = true := by
  induction stores generalizing m with
  | nil => exact h
  | cons st rest ih => exact ih (write_wf h st.addr st.val)

theorem storeAll_read {m : Memory} {stores : List TargetStore} {a : Addr} (h : ∀ st ∈ stores, st.addr ≠ a) :
    Memory.read (storeAll m stores) a.toNat = Memory.read m a.toNat := by
  induction stores generalizing m with
  | nil => rfl
  | cons st rest ih =>
    have hne : a.toNat ≠ st.addr.toNat := fun e => h st (by simp) (BitVec.eq_of_toNat_eq e.symm)
    exact (ih fun x hx => h x (by simp [hx])).trans (read_write_other st.val hne)

theorem targetTurn_wf {s : State} (h : Memory.wf s.mem = true) : Memory.wf (targetTurn s).mem = true := by
  unfold targetTurn
  split
  · exact h
  · exact storeAll_wf h _

/-- The target program's turn leaves a byte it does not name. -/
theorem targetTurn_byteAt {s : State} {a : Addr} (h : s.targetLeaves a) : (targetTurn s).byteAt a = s.byteAt a := by
  unfold targetTurn State.byteAt
  split
  · rfl
  · rename_i stores later hs
    exact storeAll_read (h stores (by simp [hs]))

theorem targetTurn_leaves {s : State} {a : Addr} (h : s.targetLeaves a) : (targetTurn s).targetLeaves a := by
  unfold targetTurn State.targetLeaves
  split
  · exact h
  · rename_i stores later hs
    intro turn ht
    exact h turn (by simp [hs]; exact Or.inr ht)

@[simp] theorem targetTurn_none {s : State} (h : s.target = []) : targetTurn s = s := by
  unfold targetTurn; split <;> simp_all

/-- What a turn does to memory and to the turns to come. -/
@[simp] theorem targetTurn_mem (s : State) : (targetTurn s).mem = storeAll s.mem (s.target.headD []) := by
  unfold targetTurn; split <;> simp_all [storeAll]
@[simp] theorem targetTurn_target (s : State) : (targetTurn s).target = s.target.tail := by
  unfold targetTurn; split <;> simp_all

@[simp] theorem storeAll_nil (m : Memory) : storeAll m [] = m := rfl
@[simp] theorem targetMem_nil (m : Memory) : targetMem m [] = m := rfl
@[simp] theorem targetMem_cons (m : Memory) (turn : List TargetStore) (turns : List (List TargetStore)) :
    targetMem m (turn :: turns) = targetMem (storeAll m turn) turns := rfl

theorem targetMem_wf {m : Memory} (h : Memory.wf m = true) (turns : List (List TargetStore)) :
    Memory.wf (targetMem m turns) = true := by
  induction turns generalizing m with
  | nil => exact h
  | cons turn turns ih => exact ih (storeAll_wf h turn)

/-- The first `k + 1` turns are the next one and `k` more. -/
theorem targetMem_take_succ (m : Memory) (turns : List (List TargetStore)) (k : Nat) :
    targetMem m (turns.take (k + 1)) = targetMem (storeAll m (turns.headD [])) (turns.tail.take k) := by
  cases turns <;> simp

@[simp] theorem turnReads_length (m : Memory) (turns : List (List TargetStore)) (a : Addr) (k : Nat) :
    (turnReads m turns a k).length = k := by
  induction k generalizing m turns a with
  | zero => rfl
  | succ k ih => simp [turnReads, ih]

/-- With no turns to come, the reads see the memory as it stands. -/
@[simp] theorem turnReads_quiet (m : Memory) (a : Addr) (k : Nat) :
    turnReads m [] a k = (spanAddrs a k).map fun a => Memory.read m a.toNat := by
  induction k generalizing a with
  | zero => rfl
  | succ k ih => simp [turnReads, spanAddrs, ih]

/-- With no turns to come, only the block's own bytes are stored. -/
@[simp] theorem storeTurns_quiet (m : Memory) (a : Addr) (vs : List Byte) : storeTurns m [] a vs = storeBytes m a vs := by
  induction vs generalizing m a with
  | nil => rfl
  | cons v vs ih => simp [storeTurns, storeBytes, ih]

theorem storeTurns_wf {m : Memory} (h : Memory.wf m = true) (turns : List (List TargetStore)) (a : Addr) (vs : List Byte) :
    Memory.wf (storeTurns m turns a vs) = true := by
  induction vs generalizing m turns a with
  | nil => exact h
  | cons v vs ih => exact ih (write_wf (storeAll_wf h _) a v) _ _

@[simp] theorem targetTurn_cfg (s : State) : (targetTurn s).cfg = s.cfg := by unfold targetTurn; split <;> rfl
@[simp] theorem targetTurn_rx (s : State) : (targetTurn s).rx = s.rx := by unfold targetTurn; split <;> rfl
@[simp] theorem targetTurn_tx (s : State) : (targetTurn s).tx = s.tx := by unfold targetTurn; split <;> rfl
@[simp] theorem targetTurn_emitter (s : State) : (targetTurn s).emitter = s.emitter := by unfold targetTurn; split <;> rfl
@[simp] theorem targetTurn_init (s : State) : (targetTurn s).init = s.init := by unfold targetTurn; split <;> rfl
@[simp] theorem targetTurn_fault (s : State) : (targetTurn s).fault = s.fault := by unfold targetTurn; split <;> rfl
@[simp] theorem targetTurn_pending (s : State) : (targetTurn s).pending = s.pending := by unfold targetTurn; split <;> rfl
@[simp] theorem targetTurn_trace (s : State) : (targetTurn s).trace = s.trace := by unfold targetTurn; split <;> rfl

/-- Memory at reset is canonical. -/
theorem reset_mem_wf (p : Params) (e : Emitter) : Memory.wf (State.resetWith p e).mem = true := rfl

end Sys2Proof.Machine
end

