-- ==== Sys2Proof/Laws/Ops.lean ====
section
/-! SUPPORT. One lemma per shared operation of Machine/Ops and Machine/Transmitter: what it answers, and everything it can do. -/

namespace Sys2Proof.Machine

open Sys2Proof

/-! ### How operations chain -/

@[simp] theorem andThen_done {α β : Type} (a : α) (s : State) (k : α → State → Res β) :
    (Res.done a s).andThen k = k a s := rfl
@[simp] theorem andThen_halt {α β : Type} (s : State) (k : α → State → Res β) : (Res.halt s).andThen k = .halt s := rfl
@[simp] theorem andThen_stop {α β : Type} (f : Fault) (k : α → State → Res β) : (Res.stop f).andThen k = .stop f := rfl
@[simp] theorem outcome_done {α : Type} (a : α) (s : State) : (Res.done a s).outcome = .next s := rfl
@[simp] theorem outcome_halt {α : Type} (s : State) : (Res.halt s : Res α).outcome = .next s := rfl
@[simp] theorem outcome_stop {α : Type} (f : Fault) : (Res.stop f : Res α).outcome = .fault f := rfl

/-- Every state the result can leave satisfies `P`. -/
def Res.All {α : Type} (P : State → Prop) : Res α → Prop
  | .done _ t => P t
  | .halt t => P t
  | .stop _ => True

@[simp] theorem all_done {α : Type} (P : State → Prop) (a : α) (s : State) : (Res.done a s).All P ↔ P s := Iff.rfl
@[simp] theorem all_halt {α : Type} (P : State → Prop) (s : State) : (Res.halt s : Res α).All P ↔ P s := Iff.rfl
@[simp] theorem all_stop {α : Type} (P : State → Prop) (f : Fault) : (Res.stop f : Res α).All P ↔ True := Iff.rfl

theorem Res.All.mono {α : Type} {P Q : State → Prop} {r : Res α} (h : r.All P) (hpq : ∀ t, P t → Q t) : r.All Q := by
  cases r with
  | done a t => exact hpq t h
  | halt t => exact hpq t h
  | stop f => trivial

theorem Res.All.andThen {α β : Type} {P : State → Prop} {r : Res α} {k : α → State → Res β} (h : r.All P)
    (hk : ∀ a t, P t → (k a t).All P) : (r.andThen k).All P := by
  cases r with
  | done a t => exact hk a t h
  | halt t => exact h
  | stop f => trivial

/-- What an operation can leave is what its outcome's next state can be. -/
theorem Res.All.outcome {α : Type} {P : State → Prop} {r : Res α} (h : r.All P) {t : State}
    (ht : r.outcome = .next t) : P t := by
  cases r with
  | done a u => cases ht; exact h
  | halt u => cases ht; exact h
  | stop f => cases ht

/-! ### Guards -/

theorem whenReady_of {s : State} (hf : s.fault = none) (hc : s.cfg.ok = true)
    (k : State → Host.Outcome State Fault Refusal) : whenReady s k = k s := by
  simp [whenReady, hf, hc]

theorem whenRunning_of {s : State} (h : Running s) (k : State → Host.Outcome State Fault Refusal) :
    whenRunning s k = k s := by
  simp [whenRunning, whenReady_of h.noFault h.cfgOk, h.inited]

/-- A guarded operation that leaves a next state ran, on a block that was running. -/
theorem whenRunning_next {s t : State} {k : State → Host.Outcome State Fault Refusal}
    (h : whenRunning s k = .next t) : Running s ∧ k s = .next t := by
  unfold whenRunning whenReady at h
  split at h
  · cases h
  · rename_i hf
    split at h
    · rename_i hc
      by_cases hi : s.init = true
      · exact ⟨⟨hf, hc, hi⟩, by simpa [hi] using h⟩
      · simp [hi] at h
    · cases h

theorem whenReady_next {s t : State} {k : State → Host.Outcome State Fault Refusal}
    (h : whenReady s k = .next t) : s.fault = none ∧ s.cfg.ok = true ∧ k s = .next t := by
  unfold whenReady at h
  split at h
  · cases h
  · rename_i hf
    split at h
    · exact ⟨hf, ‹_›, h⟩
    · cases h

theorem requireIdle_idle {α : Type} {s : State} (h : s.tx.state = .idle) (k : State → Res α) : requireIdle s k = k s := by
  simp [requireIdle, h]

theorem requireIdle_sending {α : Type} {s : State} (h : s.tx.state = .sending) (k : State → Res α) :
    requireIdle s k = .halt (s.raised .txOverrun) := by
  simp [requireIdle, h, raise]

/-- The parameters' bounds (R10). -/
theorem ok_bounds {p : Params} (h : p.ok = true) : 1 ≤ p.maxPayload ∧ p.maxPayload ≤ 65535 ∧ 1 ≤ p.maxVars ∧ p.maxVars ≤ 255 := by
  simp only [Params.ok, Bool.and_eq_true, decide_eq_true_eq] at h
  exact ⟨h.1.1.1.2, h.1.1.2, h.1.2, h.2⟩

theorem ok_commands {p : Params} (h : p.ok = true) : p.commands.Nodup := by
  simp only [Params.ok, Bool.and_eq_true, decide_eq_true_eq] at h
  exact h.1.1.1.1.1

theorem ok_codes {p : Params} (h : p.ok = true) : p.codes.Nodup := by
  simp only [Params.ok, Bool.and_eq_true, decide_eq_true_eq] at h
  exact h.1.1.1.1.2

/-! ### Memory accesses -/

theorem memRead_served {s : State} {a : Addr} (h : s.cfg.serves a = true) :
    memRead a s = .done ((targetTurn s).byteAt a) ((targetTurn s).observe (.memRead a ((targetTurn s).byteAt a))) := by
  simp [memRead, h, State.byteAt]

theorem memRead_unmapped {s : State} {a : Addr} (h : s.cfg.serves a = false) :
    memRead a s = .halt (s.raised .memUnmapped) := by
  simp [memRead, h, raise]

theorem memWrite_served {s : State} {a : Addr} (v : Byte) (h : s.cfg.serves a = true) :
    memWrite a v s =
      .done () (((targetTurn s).withMem (Memory.write (targetTurn s).mem a.toNat v)).observe (.memWrite a v)) := by
  simp [memWrite, h]

theorem memWrite_unmapped {s : State} {a : Addr} (v : Byte) (h : s.cfg.serves a = false) :
    memWrite a v s = .halt (s.raised .memUnmapped) := by
  simp [memWrite, h, raise]

/-! ### Buffer accesses -/

theorem rxPut_of_lt {s : State} {i : Nat} (v : Byte) (h : i < s.rx.buf.length) :
    rxPut i v s = .done () (s.withRx { s.rx with buf := s.rx.buf.set i (some v) }) := by
  simp [rxPut, put?_of_lt v h]

theorem txPut_of_lt {s : State} {i : Nat} (v : Byte) (h : i < s.tx.buf.length) :
    txPut i v s = .done () (s.withTx { s.tx with buf := s.tx.buf.set i (some v) }) := by
  simp [txPut, put?_of_lt v h]

theorem stage_of_lt {s : State} {n : Nat} (v : Byte) (h : 5 + n < s.tx.buf.length) :
    stage n v s = .done () (s.withTx { s.tx with buf := s.tx.buf.set (5 + n) (some v) }) :=
  txPut_of_lt v h

/-! ### Encode -/

/-- Encode over a wholly staged payload that fits: the frame is loaded, its marker emitted, the transmitter is Sending. -/
theorem encodeFrame_of {s : State} {cmd : RespCode} {seq : Byte} {n : Nat} {payload : List Byte}
    (hp : Buf.span? s.tx.buf 5 n = some payload) (hn : 7 + n ≤ s.cfg.txCap) :
    ∃ buf, Buf.load? s.cfg.txCap (frameBytes s.cfg (s.cfg.respByte cmd) seq payload) = some buf ∧
      encodeFrame cmd seq n s = .done () ((emit s.cfg.startMarker s).withTx ⟨.sending, buf, 7 + n, 1⟩) := by
  have hl := (span?_some hp).1
  obtain ⟨buf, hb⟩ := load?_of_le (cap := s.cfg.txCap)
    (bytes := frameBytes s.cfg (s.cfg.respByte cmd) seq payload) (by simp; omega)
  have h0 : Buf.cell? buf 0 = some s.cfg.startMarker := by
    rw [(load?_some hb).2.1 0 (by simp), frameBytes_head]
  exact ⟨buf, hb, by simp [encodeFrame, readSpan, hp, hb, h0]⟩

/-- Everything Encode can do: it stops, or it is as in `encodeFrame_of`. -/
theorem encodeFrame_cases (s : State) (cmd : RespCode) (seq : Byte) (n : Nat) :
    (∃ f, encodeFrame cmd seq n s = .stop f) ∨
      ∃ payload buf, Buf.span? s.tx.buf 5 n = some payload ∧
        Buf.load? s.cfg.txCap (frameBytes s.cfg (s.cfg.respByte cmd) seq payload) = some buf ∧
        encodeFrame cmd seq n s = .done () ((emit s.cfg.startMarker s).withTx ⟨.sending, buf, 7 + n, 1⟩) := by
  cases hp : Buf.span? s.tx.buf 5 n with
  | none => exact .inl ⟨.unwrittenCell, by simp [encodeFrame, readSpan, hp]⟩
  | some payload =>
    cases hb : Buf.load? s.cfg.txCap (frameBytes s.cfg (s.cfg.respByte cmd) seq payload) with
    | none => exact .inl ⟨.outsideBuffer, by simp [encodeFrame, readSpan, hp, hb]⟩
    | some buf =>
      have h0 : Buf.cell? buf 0 = some s.cfg.startMarker := by
        rw [(load?_some hb).2.1 0 (by simp), frameBytes_head]
      exact .inr ⟨payload, buf, rfl, hb, by simp [encodeFrame, readSpan, hp, hb, h0]⟩

/-- The error path over a buffer with room for one payload byte always sends its frame. -/
theorem errorResponse_of {s : State} (code : ErrCode) (seq : Byte) (hb : s.tx.buf.length = s.cfg.txCap)
    (hm : 1 ≤ s.cfg.maxPayload) :
    ∃ buf, Buf.load? s.cfg.txCap (frameBytes s.cfg s.cfg.cmdError seq [s.cfg.errByte code]) = some buf ∧
      errorResponse code seq s = .done () ((emit s.cfg.startMarker s).withTx ⟨.sending, buf, 8, 1⟩) := by
  have hlt : 5 + 0 < s.tx.buf.length := by simp [hb, Params.txCap]; omega
  have hs : Buf.span? (s.tx.buf.set (5 + 0) (some (s.cfg.errByte code))) 5 1 = some [s.cfg.errByte code] :=
    span?_of_cells (bs := [s.cfg.errByte code]) fun i hi => by
      simp only [List.length_singleton] at hi
      obtain rfl : i = 0 := by omega
      simpa using cell?_set_same (s.cfg.errByte code) hlt
  obtain ⟨buf, hl, he⟩ := encodeFrame_of
    (s := s.withTx { s.tx with buf := s.tx.buf.set (5 + 0) (some (s.cfg.errByte code)) })
    (cmd := .error) (seq := seq) hs (by simp [Params.txCap]; omega)
  exact ⟨buf, hl, by rw [errorResponse, stage_of_lt _ hlt, andThen_done, he]; rfl⟩

end Sys2Proof.Machine
end

