-- ==== Sys2Proof/Laws/Keeps.lean ====
section
/-! SUPPORT. What no operation inside a completed frame's dispatch can change (Keeps), and which bytes of target memory it
can change (Spares): one lemma per shared operation. -/

namespace Sys2Proof.Machine

open Sys2Proof

/-- From `s` to `t` only the Transmit Context, target memory, the target program's turns, the trace and the fault mark may
have changed; the invariants of memory and of the Transmit Context carry over; the trace has only grown. -/
structure Keeps (s t : State) : Prop where
  cfg     : t.cfg = s.cfg
  rx      : t.rx = s.rx
  emitter : t.emitter = s.emitter
  init    : t.init = s.init
  pending : t.pending = s.pending
  mem     : Memory.wf s.mem = true → Memory.wf t.mem = true
  tx      : TxInv s.cfg s.tx → TxInv s.cfg t.tx
  trace   : s.trace <+: t.trace

theorem Keeps.refl (s : State) : Keeps s s := ⟨rfl, rfl, rfl, rfl, rfl, id, id, List.prefix_refl _⟩

theorem Keeps.trans {s t u : State} (h : Keeps s t) (h' : Keeps t u) : Keeps s u where
  cfg := h'.cfg.trans h.cfg
  rx := h'.rx.trans h.rx
  emitter := h'.emitter.trans h.emitter
  init := h'.init.trans h.init
  pending := h'.pending.trans h.pending
  mem := fun w => h'.mem (h.mem w)
  tx := fun w => by have := h'.tx; rw [h.cfg] at this; exact this (h.tx w)
  trace := h.trace.trans h'.trace

/-- From `s` to `t` the byte `a` of target memory is as it was, if the target program does not name it. -/
def Spares (a : Addr) (s t : State) : Prop := s.targetLeaves a → t.targetLeaves a ∧ t.byteAt a = s.byteAt a

theorem Spares.refl (a : Addr) (s : State) : Spares a s s := fun h => ⟨h, rfl⟩

theorem Spares.trans {a : Addr} {s t u : State} (h : Spares a s t) (h' : Spares a t u) : Spares a s u := fun w =>
  ⟨(h' (h w).1).1, (h' (h w).1).2.trans (h w).2⟩

/-- A state with the same memory and the same turns to come spares every byte. -/
theorem Spares.of_eq {a : Addr} {s t : State} (hm : t.mem = s.mem) (ht : t.target = s.target) : Spares a s t := fun w =>
  ⟨by simpa [State.targetLeaves, ht] using w, by simp [State.byteAt, hm]⟩

theorem all_keeps_bind {α β : Type} {s : State} {r : Res α} {k : α → State → Res β} (h : r.All (Keeps s))
    (hk : ∀ a t, (k a t).All (Keeps t)) : (r.andThen k).All (Keeps s) :=
  h.andThen fun a t ht => (hk a t).mono fun _ hu => ht.trans hu

theorem all_spares_bind {α β : Type} {a : Addr} {s : State} {r : Res α} {k : α → State → Res β} (h : r.All (Spares a s))
    (hk : ∀ x t, (k x t).All (Spares a t)) : (r.andThen k).All (Spares a s) :=
  h.andThen fun x t ht => (hk x t).mono fun _ hu => ht.trans hu

/-! ### Keeps -/

theorem raised_keeps (s : State) (k : FaultKind) : Keeps s (s.raised k) :=
  ⟨rfl, rfl, rfl, rfl, rfl, id, id, List.prefix_refl _⟩

theorem targetTurn_keeps (s : State) : Keeps s (targetTurn s) where
  cfg := by simp
  rx := by simp
  emitter := by simp
  init := by simp
  pending := by simp
  mem := targetTurn_wf
  tx := by simp
  trace := by simp

theorem observe_keeps (s : State) (o : Obs) : Keeps s (s.observe o) :=
  ⟨rfl, rfl, rfl, rfl, rfl, id, id, List.prefix_append _ _⟩

theorem memRead_keeps (a : Addr) (s : State) : (memRead a s).All (Keeps s) := by
  cases h : s.cfg.serves a with
  | true => rw [memRead_served h]; exact (targetTurn_keeps s).trans (observe_keeps _ _)
  | false => rw [memRead_unmapped h]; exact raised_keeps s _

theorem memWrite_keeps (a : Addr) (v : Byte) (s : State) : (memWrite a v s).All (Keeps s) := by
  cases h : s.cfg.serves a with
  | true =>
    rw [memWrite_served v h]
    have hw : Keeps (targetTurn s) ((targetTurn s).withMem (Memory.write (targetTurn s).mem a.toNat v)) :=
      ⟨rfl, rfl, rfl, rfl, rfl, fun w => write_wf w a v, id, List.prefix_refl _⟩
    exact ((targetTurn_keeps s).trans hw).trans (observe_keeps _ _)
  | false => rw [memWrite_unmapped v h]; exact raised_keeps s _

theorem isSome_cell?_set {b : Buf} {i j : Nat} {v : Byte} (hi : i < b.length) (h : (Buf.cell? b j).isSome = true) :
    (Buf.cell? (b.set i (some v)) j).isSome = true := by
  by_cases hij : i = j
  · subst hij; simp [hi]
  · simpa [hij] using h

theorem txPut_keeps (i : Nat) (v : Byte) (s : State) : (txPut i v s).All (Keeps s) := by
  unfold txPut
  split
  · rename_i b hb
    obtain ⟨hlt, rfl⟩ := put?_some hb
    refine ⟨rfl, rfl, rfl, rfl, rfl, id, fun w => ⟨?_, w.len, w.idx, fun hs j hj => ?_⟩, List.prefix_refl _⟩
    · simpa using w.cap
    · exact isSome_cell?_set hlt (w.written hs j hj)
  · trivial

theorem stage_keeps (n : Nat) (v : Byte) (s : State) : (stage n v s).All (Keeps s) := txPut_keeps _ _ _

theorem stageAll_keeps (n : Nat) (vs : List Byte) (s : State) : (stageAll n vs s).All (Keeps s) := by
  induction vs generalizing n s with
  | nil => exact Keeps.refl s
  | cons v vs ih => exact all_keeps_bind (stage_keeps n v s) fun _ t => ih (n + 1) t

theorem encodeFrame_keeps (cmd : RespCode) (seq : Byte) (n : Nat) (s : State) :
    (encodeFrame cmd seq n s).All (Keeps s) := by
  rcases encodeFrame_cases s cmd seq n with ⟨f, h⟩ | ⟨payload, buf, hp, hb, h⟩
  · rw [h]; trivial
  · rw [h]
    obtain ⟨hcap, hcell, -⟩ := load?_some hb
    have hn := (span?_some hp).1
    have hfit : 7 + payload.length ≤ s.cfg.txCap := by
      unfold Buf.load? at hb
      split at hb
      · rename_i hle; simpa using hle
      · cases hb
    refine ⟨rfl, rfl, rfl, rfl, rfl, id, fun _ => ⟨hcap, ?_, fun _ => ?_, fun _ i hi => ?_⟩, List.prefix_append _ _⟩
    · simp only [Params.txCap] at hfit; simp; omega
    · simp only [withTx_tx]; omega
    · simp only [withTx_tx] at hi ⊢
      rw [hcell i (by simp; omega)]
      simp; omega

theorem errorResponse_keeps (code : ErrCode) (seq : Byte) (s : State) : (errorResponse code seq s).All (Keeps s) :=
  all_keeps_bind (stage_keeps _ _ _) fun _ t => encodeFrame_keeps _ _ _ t

theorem writeResponse_keeps (seq : Byte) (s : State) : (writeResponse seq s).All (Keeps s) :=
  all_keeps_bind (stage_keeps _ _ _) fun _ t => encodeFrame_keeps _ _ _ t

theorem abort_keeps {α : Type} (seq : Byte) (s : State) : (abortInvalidSize seq s : Res (Option α)).All (Keeps s) :=
  all_keeps_bind (errorResponse_keeps _ _ _) fun _ t => Keeps.refl t

theorem readBytes_keeps (k : Nat) (a : Addr) (n : Nat) (s : State) : (readBytes k a n s).All (Keeps s) := by
  induction k generalizing a n s with
  | zero => exact Keeps.refl s
  | succ k ih =>
    exact all_keeps_bind (memRead_keeps a s) fun v t => all_keeps_bind (stage_keeps n v t) fun _ u => ih _ _ u

theorem readDesc_keeps (seq : Byte) (d : Desc) (n : Nat) (s : State) : (readDesc seq d n s).All (Keeps s) := by
  unfold readDesc readFull readBit
  split <;> split
  · exact abort_keeps seq s
  · exact all_keeps_bind (readBytes_keeps _ _ _ s) fun _ t => Keeps.refl t
  · exact abort_keeps seq s
  · exact all_keeps_bind (memRead_keeps _ s) fun v t => all_keeps_bind (stage_keeps _ _ t) fun _ u => Keeps.refl u

theorem readLoop_keeps (seq : Byte) (k : Nat) (rest : List Byte) (n : Nat) (s : State) :
    (readLoop seq k rest n s).All (Keeps s) := by
  induction k generalizing rest n s with
  | zero => exact Keeps.refl s
  | succ k ih =>
    simp only [readLoop]
    split
    · trivial
    · refine all_keeps_bind (readDesc_keeps seq _ n s) fun r t => ?_
      cases r with
      | none => exact Keeps.refl t
      | some n => exact ih _ n t

theorem readHandler_keeps (seq : Byte) (payload : List Byte) (s : State) : (readHandler seq payload s).All (Keeps s) := by
  unfold readHandler
  split
  · exact errorResponse_keeps _ _ s
  · split
    · exact errorResponse_keeps _ _ s
    · split
      · exact errorResponse_keeps _ _ s
      · refine all_keeps_bind (stage_keeps _ _ s) fun _ t => all_keeps_bind (readLoop_keeps _ _ _ _ t) fun r u => ?_
        cases r with
        | none => exact Keeps.refl u
        | some n => exact encodeFrame_keeps _ _ _ u

theorem writeBytes_keeps (a : Addr) (vs : List Byte) (s : State) : (writeBytes a vs s).All (Keeps s) := by
  induction vs generalizing a s with
  | nil => exact Keeps.refl s
  | cons v vs ih => exact all_keeps_bind (memWrite_keeps a v s) fun _ t => ih _ t

theorem writeElem_keeps (seq : Byte) (d : Desc) (rest : List Byte) (s : State) : (writeElem seq d rest s).All (Keeps s) := by
  unfold writeElem writeFull writeBit
  split
  · split
    · exact abort_keeps seq s
    · exact all_keeps_bind (writeBytes_keeps _ _ s) fun _ t => Keeps.refl t
  · split
    · exact abort_keeps seq s
    · exact all_keeps_bind (memRead_keeps _ s) fun _ t => all_keeps_bind (memWrite_keeps _ _ t) fun _ u => Keeps.refl u

theorem writeLoop_keeps (seq : Byte) (k : Nat) (rest : List Byte) (s : State) :
    (writeLoop seq k rest s).All (Keeps s) := by
  induction k generalizing rest s with
  | zero => exact Keeps.refl s
  | succ k ih =>
    simp only [writeLoop]
    split
    · exact abort_keeps seq s
    · refine all_keeps_bind (writeElem_keeps seq _ _ s) fun r t => ?_
      cases r with
      | none => exact Keeps.refl t
      | some rest => exact ih rest t

theorem writeHandler_keeps (seq : Byte) (payload : List Byte) (s : State) : (writeHandler seq payload s).All (Keeps s) := by
  unfold writeHandler
  split
  · exact errorResponse_keeps _ _ s
  · split
    · exact errorResponse_keeps _ _ s
    · refine all_keeps_bind (writeLoop_keeps _ _ _ s) fun r t => ?_
      cases r with
      | none => exact Keeps.refl t
      | some rest => exact writeResponse_keeps _ t

theorem route_keeps (cmd seq : Byte) (payload : List Byte) (s : State) : (route cmd seq payload s).All (Keeps s) := by
  unfold route
  split
  · exact readHandler_keeps _ _ s
  · exact writeHandler_keeps _ _ s
  · exact encodeFrame_keeps _ _ _ s
  · exact errorResponse_keeps _ _ s

theorem requireIdle_keeps {α : Type} {s : State} {k : State → Res α} (h : (k s).All (Keeps s)) :
    (requireIdle s k).All (Keeps s) := by
  unfold requireIdle
  split
  · exact raised_keeps s _
  · exact h

theorem dispatch_keeps (s : State) : (dispatch s).All (Keeps s) := by
  refine requireIdle_keeps (all_keeps_bind (r := completedFrame s) ?_ fun f t => ?_)
  · unfold completedFrame
    split
    · exact Keeps.refl s
    · trivial
  · split
    · exact route_keeps _ _ _ t
    · exact errorResponse_keeps _ _ t

/-! ### Spares -/

theorem targetTurn_spares (a : Addr) (s : State) : Spares a s (targetTurn s) := fun w =>
  ⟨targetTurn_leaves w, targetTurn_byteAt w⟩

theorem memRead_spares (a b : Addr) (s : State) : (memRead b s).All (Spares a s) := by
  cases h : s.cfg.serves b with
  | true => rw [memRead_served h]; exact (targetTurn_spares a s).trans (Spares.of_eq rfl rfl)
  | false => rw [memRead_unmapped h]; exact Spares.of_eq rfl rfl

/-- A MemWrite changes no byte but the one it names. -/
theorem memWrite_spares {a b : Addr} (hab : a ≠ b) (v : Byte) (s : State) : (memWrite b v s).All (Spares a s) := by
  cases h : s.cfg.serves b with
  | true =>
    rw [memWrite_served v h]
    refine (targetTurn_spares a s).trans fun w => ⟨w, ?_⟩
    exact read_write_other v fun e => hab (BitVec.eq_of_toNat_eq e)
  | false => rw [memWrite_unmapped v h]; exact Spares.of_eq rfl rfl

theorem stage_spares (a : Addr) (n : Nat) (v : Byte) (s : State) : (stage n v s).All (Spares a s) := by
  unfold stage txPut
  split
  · exact Spares.of_eq rfl rfl
  · trivial

theorem encodeFrame_spares (a : Addr) (cmd : RespCode) (seq : Byte) (n : Nat) (s : State) :
    (encodeFrame cmd seq n s).All (Spares a s) := by
  rcases encodeFrame_cases s cmd seq n with ⟨f, h⟩ | ⟨payload, buf, hp, hb, h⟩
  · rw [h]; trivial
  · rw [h]; exact Spares.of_eq rfl rfl

theorem errorResponse_spares (a : Addr) (code : ErrCode) (seq : Byte) (s : State) :
    (errorResponse code seq s).All (Spares a s) :=
  all_spares_bind (stage_spares _ _ _ _) fun _ t => encodeFrame_spares _ _ _ _ t

theorem abort_spares {α : Type} (a : Addr) (seq : Byte) (s : State) :
    (abortInvalidSize seq s : Res (Option α)).All (Spares a s) :=
  all_spares_bind (errorResponse_spares _ _ _ _) fun _ t => Spares.refl a t

theorem readBytes_spares (a : Addr) (k : Nat) (b : Addr) (n : Nat) (s : State) : (readBytes k b n s).All (Spares a s) := by
  induction k generalizing b n s with
  | zero => exact Spares.refl a s
  | succ k ih =>
    exact all_spares_bind (memRead_spares a b s) fun v t => all_spares_bind (stage_spares a n v t) fun _ u => ih _ _ u

/-- The byte loop of WRITE.FULL changes no byte outside the addresses it stores to. -/
theorem writeBytes_spares {a : Addr} (b : Addr) (vs : List Byte) (s : State) (h : a ∉ spanAddrs b vs.length) :
    (writeBytes b vs s).All (Spares a s) := by
  induction vs generalizing b s with
  | nil => exact Spares.refl a s
  | cons v vs ih =>
    simp only [List.length_cons, spanAddrs, List.mem_cons, not_or] at h
    exact all_spares_bind (memWrite_spares h.1 v s) fun _ t => ih _ t h.2

end Sys2Proof.Machine
end

