-- ==== Sys2Proof/Laws/PerInstr.lean ====
section
/-! SUPPORT. One fact per constructor of Instr: the selector byte its delivery begins with on the model's port (log 11), which is
what keeps the kinds of operation of R77 apart there. -/

namespace Sys2Proof.Laws.Selector

open Sys2Proof

/-- The selector of each kind of delivery (log 11). -/
def selectorOf : Instr → Byte
  | .init _ => 0
  | .rx _ => 1
  | .txslot => 2
  | .busy => 3
  | .version => 4
  | .dispatch => 5
  | .crc16 _ => 6
  | .encode _ _ _ => 7
  | .read _ _ | .write _ _ | .ping _ _ | .unknown _ _ _ => 8
  | .readResp _ _ _ | .writeResp _ | .pong _ | .error _ _ => 9
  | .readFull _ _ _ _ _ | .readBit _ _ _ _ _ _ => 10
  | .writeFull _ _ _ _ _ | .writeBit _ _ _ _ _ _ => 11

/-- Under any configuration, the delivery of `i` begins with the selector of its kind. -/
def Statement (i : Instr) : Prop := ∀ p : Params, (encode p i).head? = some (selectorOf i)

theorem init (e : Emitter) : Statement (.init e) := fun _ => rfl
theorem rx (b : Byte) : Statement (.rx b) := fun _ => rfl
theorem txslot : Statement .txslot := fun _ => rfl
theorem busy : Statement .busy := fun _ => rfl
theorem version : Statement .version := fun _ => rfl
theorem dispatch : Statement .dispatch := fun _ => rfl
theorem read (seq : Byte) (payload : List Byte) : Statement (.read seq payload) := fun _ => rfl
theorem readFull (seq : Byte) (n : Nat) (a : Addr) (size : Half) (w : Byte) : Statement (.readFull seq n a size w) :=
  fun _ => rfl
theorem readBit (seq : Byte) (n : Nat) (a : Addr) (size : Half) (off w : Byte) : Statement (.readBit seq n a size off w) :=
  fun _ => rfl
theorem write (seq : Byte) (payload : List Byte) : Statement (.write seq payload) := fun _ => rfl
theorem writeFull (seq : Byte) (a : Addr) (size : Half) (w : Byte) (rest : List Byte) :
    Statement (.writeFull seq a size w rest) := fun _ => rfl
theorem writeBit (seq : Byte) (a : Addr) (size : Half) (off w : Byte) (rest : List Byte) :
    Statement (.writeBit seq a size off w rest) := fun _ => rfl
theorem ping (seq : Byte) (payload : List Byte) : Statement (.ping seq payload) := fun _ => rfl
theorem unknown (cmd seq : Byte) (payload : List Byte) : Statement (.unknown cmd seq payload) := fun _ => rfl
theorem crc16 (s : List Byte) : Statement (.crc16 s) := fun _ => rfl
theorem encode (c : RespCode) (seq : Byte) (n : Nat) : Statement (.encode c seq n) := fun _ => rfl
theorem readResp (seq count : Byte) (values : List Byte) : Statement (.readResp seq count values) := fun _ => rfl
theorem writeResp (seq : Byte) : Statement (.writeResp seq) := fun _ => rfl
theorem pong (seq : Byte) : Statement (.pong seq) := fun _ => rfl
theorem error (code : ErrCode) (seq : Byte) : Statement (.error code seq) := fun _ => rfl

end Sys2Proof.Laws.Selector
end

