-- ==== Sys2Proof/Tests/Slice0.lean ====
section
/-! SUPPORT. Tests of the author's own: ill-formed terms that WellFormed refuses; one word per operation, written out from the
spec's encodings and vectors; single steps whose expected results are the vectors of 95_test_vectors; and, for every statement
with hypotheses, a state and operands that meet all of them. -/

set_option Elab.async false

namespace Sys2Proof.Tests

open Sys2Proof Sys2Proof.Machine

/-- RC with a capacity of 12 payload bytes and 3 variables, so that states are small. -/
def tiny : Params := { Params.rc with maxPayload := 12, maxVars := 3 }

/-- An initialised block with the configuration `tiny`. -/
def idle : State := State.resetWith tiny 7

/-- `idle` with the vectors' memory image M0. -/
def idleM0 : State :=
  { idle with mem := [(0x20000000, 0x78), (0x20000001, 0x56), (0x20000002, 0x34), (0x20000003, 0x12), (0x20000004, 0xE1)] }

/-- `idleM0` where only addresses below 0x20000002 are served. -/
def partMapped : State := { idleM0 with cfg := { tiny with regions := [⟨0, 0x20000002⟩] } }

/-- `idle` whose receiver has taken the frame bytes `bs` and is in state `st`. -/
def rxAt (st : RxState) (bs : List Byte) (len idx : Half) : State :=
  { idle with rx := ⟨st, bs.map some ++ blankBuf (19 - bs.length), len, idx⟩ }

/-- `idle` with the pong of V-DSP-1 staged and its byte 0 sent. -/
def sending : State :=
  { idle with tx := ⟨.sending, [0xAA, 0, 0, 0x83, 5, 0xA8, 0x63].map some ++ blankBuf 12, 7, 1⟩ }

/-- The PING frame of V-DSP-1 less its last byte. -/
def pingHead : List Byte := [0xAA, 0x00, 0x00, 0x03, 0x05, 0x30]

/-- Whether the operation leaves a next state that passes the test. -/
def after (o : Host.Outcome State Fault Refusal) (p : State → Bool) : Bool :=
  match o with
  | .next t => p t
  | _ => false

/-- Whether the transmit buffer holds exactly this frame, sent up to its byte 0. -/
def staged (t : State) (frame : List Byte) : Bool :=
  decide (t.tx.state = .sending ∧ t.tx.idx = 1 ∧ t.tx.len = frame.length ∧
    Buf.span? t.tx.buf 0 frame.length = some frame ∧ t.fault = none)

/-! ### Ill-formed terms -/

theorem test_wf_refuses_long_read : (Instr.read 1 (List.replicate 13 0)).wf tiny = false := by decide +kernel
theorem test_wf_refuses_long_write : (Instr.write 1 (List.replicate 13 0)).wf tiny = false := by decide +kernel
theorem test_wf_refuses_long_ping : (Instr.ping 1 (List.replicate 13 0)).wf tiny = false := by decide +kernel
theorem test_wf_refuses_long_unknown : (Instr.unknown 0x42 1 (List.replicate 13 0)).wf tiny = false := by decide +kernel
theorem test_wf_refuses_known_unknown : (Instr.unknown 0x01 1 []).wf tiny = false := by decide
theorem test_wf_refuses_read_full_length : (Instr.readFull 1 13 0 1 0).wf tiny = false := by decide
theorem test_wf_refuses_read_full_zero : (Instr.readFull 1 0 0 1 0).wf tiny = false := by decide
theorem test_wf_refuses_read_bit_sentinel : (Instr.readBit 1 1 0 0 0xFF 1).wf tiny = false := by decide
theorem test_wf_refuses_write_full_rest : (Instr.writeFull 1 0 1 0 (List.replicate 13 0)).wf tiny = false := by decide +kernel
theorem test_wf_refuses_write_bit_sentinel : (Instr.writeBit 1 0 0 0xFF 1 [0]).wf tiny = false := by decide
theorem test_wf_refuses_long_encode : (Instr.encode .pong 1 13).wf tiny = false := by decide
theorem test_wf_refuses_long_response : (Instr.readResp 1 1 (List.replicate 12 0)).wf tiny = false := by decide +kernel

/-! ### One word per operation, from the spec's encodings (R60, R65, R69 to R71) and the vectors -/

theorem test_decode_init : decode .rc [0, 7, 0, 0, 0] = .ok (.init 7) := by decide +kernel
theorem test_decode_rx : decode .rc [1, 0xAA] = .ok (.rx 0xAA) := by decide +kernel
theorem test_decode_txslot : decode .rc [2] = .ok .txslot := by decide +kernel
theorem test_decode_busy : decode .rc [3] = .ok .busy := by decide +kernel
theorem test_decode_version : decode .rc [4] = .ok .version := by decide +kernel
theorem test_decode_dispatch : decode .rc [5] = .ok .dispatch := by decide +kernel
theorem test_decode_crc16 : decode .rc [6, 0x41] = .ok (.crc16 [0x41]) := by decide +kernel
theorem test_decode_encode : decode .rc [7, 0x83, 0x05, 0x80, 0x00] = .ok (.encode .pong 0x05 128) := by decide +kernel

/-- V-RD-4. -/
theorem test_decode_read :
    decode .rc [8, 0xAA, 0x09, 0x00, 0x01, 0x14, 0x01, 0x00, 0x00, 0x00, 0x20, 0x04, 0x00, 0xFF, 0x00, 0x38, 0xFB] =
      .ok (.read 0x14 [0x01, 0x00, 0x00, 0x00, 0x20, 0x04, 0x00, 0xFF, 0x00]) := by decide +kernel

/-- V-WR-3. -/
theorem test_decode_write :
    decode .rc [8, 0xAA, 0x0A, 0x00, 0x02, 0x23, 0x01, 0x04, 0x00, 0x00, 0x20, 0x00, 0x00, 0x02, 0x03, 0x05, 0xAE, 0x89] =
      .ok (.write 0x23 [0x01, 0x04, 0x00, 0x00, 0x20, 0x00, 0x00, 0x02, 0x03, 0x05]) := by decide +kernel

/-- V-DSP-5. -/
theorem test_decode_ping : decode .rc [8, 0xAA, 0x03, 0x00, 0x03, 0x09, 0x01, 0x02, 0x03, 0xBD, 0x82] =
    .ok (.ping 0x09 [1, 2, 3]) := by decide +kernel

/-- V-DSP-4: a received response code is unknown. -/
theorem test_decode_unknown : decode .rc [8, 0xAA, 0x00, 0x00, 0x81, 0x08, 0x67, 0xD4] =
    .ok (.unknown 0x81 0x08 []) := by decide +kernel

theorem test_decode_read_full : decode .rc [10, 0x11, 0x01, 0x00, 0x78, 0x56, 0x34, 0x12, 0x04, 0x01, 0xFF, 0x09] =
    .ok (.readFull 0x11 1 0x12345678 0x0104 0x09) := by decide +kernel
theorem test_decode_read_bit : decode .rc [10, 0x11, 0x02, 0x00, 0x04, 0x00, 0x00, 0x20, 0x00, 0x00, 0x05, 0x03] =
    .ok (.readBit 0x11 2 0x20000004 0 5 3) := by decide +kernel
theorem test_decode_write_full : decode .rc [11, 0x11, 0x00, 0x00, 0x00, 0x20, 0x02, 0x00, 0xFF, 0x00, 0xAB, 0xCD] =
    .ok (.writeFull 0x11 0x20000000 2 0 [0xAB, 0xCD]) := by decide +kernel
theorem test_decode_write_bit : decode .rc [11, 0x11, 0x04, 0x00, 0x00, 0x20, 0x00, 0x00, 0xFE, 0x03, 0x05] =
    .ok (.writeBit 0x11 0x20000004 0 0xFE 3 [0x05]) := by decide +kernel

/-- V-RD-11's response. -/
theorem test_decode_read_resp : decode .rc [9, 0xAA, 0x02, 0x00, 0x81, 0x1B, 0x01, 0x00, 0xE0, 0x67] =
    .ok (.readResp 0x1B 1 [0]) := by decide +kernel

/-- V-WR-2's response. -/
theorem test_decode_write_resp : decode .rc [9, 0xAA, 0x01, 0x00, 0x82, 0x22, 0x00, 0xD5, 0xF6] =
    .ok (.writeResp 0x22) := by decide +kernel

/-- V-DSP-1's response. -/
theorem test_decode_pong : decode .rc [9, 0xAA, 0x00, 0x00, 0x83, 0x05, 0xA8, 0x63] = .ok (.pong 0x05) := by decide +kernel

/-- V-DSP-2's response. -/
theorem test_decode_error : decode .rc [9, 0xAA, 0x01, 0x00, 0xFF, 0x05, 0x01, 0xDC, 0xE3] =
    .ok (.error .crc 0x05) := by decide +kernel

/-- V-DSP-2's request: the CRC's high byte is corrupted. -/
theorem test_decode_bad_crc : decode .rc [8, 0xAA, 0x00, 0x00, 0x03, 0x05, 0x30, 0x79] = .error .badCrc := by decide +kernel

/-- V-RX-3: 129 bytes declared, 128 allowed. -/
theorem test_decode_oversize : decode .rc [8, 0xAA, 0x81, 0x00, 0x03, 0x05, 0x30, 0x78] = .error .oversize := by decide +kernel

theorem test_table_word_runs_next : (match decodeTableWord 8 0x02 with | some i => decide (i = .txslot) | none => false) = true := by
  decide +kernel

/-! ### Single steps -/

/-- V-CRC-1, the check value of R93. -/
theorem test_crc16_check_value : crc16 [0x31, 0x32, 0x33, 0x34, 0x35, 0x36, 0x37, 0x38, 0x39] = 0x29B1 := by decide +kernel

/-- V-CRC-4, and the result shown by CRC16 run on its own, here before the first initialize (R90: no state, log 14). -/
theorem test_crc16_shown : after (exec (.crc16 [0xFF]) { idle with init := false }) (fun t => decide (t.trace = [.crc 0xFF00])) = true := by
  decide +kernel

/-- V-INIT-1: a second initialize abandons a transmission. -/
theorem test_init_abandons : after (exec (.init 9) sending) (fun t =>
    decide (t.tx.state = .idle ∧ t.tx.idx = 0 ∧ t.emitter = 9)) = true := by decide +kernel

/-- V-RX-1, first byte. -/
theorem test_rx_marker : after (exec (.rx 0xAA) idle) (fun t => decide (t.rx.state = .lenLow)) = true := by decide +kernel

/-- V-RX-1, last byte: the pong is staged, AA is emitted, the receiver is Idle. -/
theorem test_rx_completes_ping : after (exec (.rx 0x78) (rxAt .crcHigh pingHead 0 0)) (fun t =>
    staged t [0xAA, 0x00, 0x00, 0x83, 0x05, 0xA8, 0x63] && decide (t.rx.state = .idle ∧ t.trace = [.emit 7 0xAA])) = true := by
  decide +kernel

/-- V-TX-1, slot 1. -/
theorem test_txslot_next : after (exec .txslot sending) (fun t =>
    decide (t.trace = [.emit 7 0x00] ∧ t.tx.idx = 2 ∧ t.tx.state = .sending)) = true := by decide +kernel

/-- V-TX-1, slot 6: Idle with the last byte. -/
theorem test_txslot_last : after (exec .txslot { sending with tx := { sending.tx with idx := 6 } }) (fun t =>
    decide (t.trace = [.emit 7 0x63] ∧ t.tx.idx = 7 ∧ t.tx.state = .idle)) = true := by decide +kernel

theorem test_busy : after (exec .busy sending) (fun t => decide (t.trace = [.busy true])) = true := by decide +kernel
theorem test_version : after (exec .version { idle with cfg := { tiny with version := [0x76] } }) (fun t =>
    decide (t.trace = [.version [0x76]])) = true := by decide +kernel

/-- V-INIT-2. -/
theorem test_version_before_init : (match exec .version { idle with init := false } with
    | .refused .notInitialised => true | _ => false) = true := by decide +kernel

/-- V-DSP-2. -/
theorem test_dispatch_bad_crc : after (exec .dispatch (rxAt .crcHigh (pingHead ++ [0x79]) 0 0)) (fun t =>
    staged t [0xAA, 0x01, 0x00, 0xFF, 0x05, 0x01, 0xDC, 0xE3]) = true := by decide +kernel

/-- V-TX-3. -/
theorem test_dispatch_overrun : after (exec .dispatch { rxAt .crcHigh (pingHead ++ [0x78]) 0 0 with tx := sending.tx }) (fun t =>
    decide (t.fault = some .txOverrun ∧ t.trace = [])) = true := by decide +kernel

/-- V-RD-4. -/
theorem test_read_full_command :
    after (exec (.read 0x14 [0x01, 0x00, 0x00, 0x00, 0x20, 0x04, 0x00, 0xFF, 0x00]) idleM0) (fun t =>
      staged t [0xAA, 0x05, 0x00, 0x81, 0x14, 0x01, 0x78, 0x56, 0x34, 0x12, 0x1B, 0xAA]) = true := by decide +kernel

/-- V-RD-1. -/
theorem test_read_count_zero : after (exec (.read 0x11 [0x00]) idleM0) (fun t =>
    staged t [0xAA, 0x01, 0x00, 0xFF, 0x11, 0x03, 0x29, 0x0C]) = true := by decide +kernel

/-- V-RD-12: the address wraps. -/
theorem test_read_full_wraps :
    after (exec (.readFull 0x1C 1 0xFFFFFFFE 4 0)
      { idle with mem := [(0, 3), (1, 4), (0xFFFFFFFE, 1), (0xFFFFFFFF, 2)] }) (fun t =>
      decide (Buf.span? t.tx.buf 6 4 = some [1, 2, 3, 4])) = true := by decide +kernel

/-- V-RD-13: the first unmapped byte faults. -/
theorem test_read_full_unmapped : after (exec (.readFull 0x1D 1 0x20000000 4 0) partMapped) (fun t =>
    decide (t.fault = some .memUnmapped ∧ t.trace = [.memRead 0x20000000 0x78, .memRead 0x20000001 0x56])) = true := by
  decide +kernel

/-- V-RD-5. -/
theorem test_read_bit : after (exec (.readBit 0x15 1 0x20000004 0 5 3) idleM0) (fun t =>
    decide (Buf.cell? t.tx.buf 6 = some 0x07 ∧ t.trace = [.memRead 0x20000004 0xE1])) = true := by decide +kernel

/-- V-RD-11: bit_offset 8 reads the byte and stages 0. -/
theorem test_read_bit_offset_eight : after (exec (.readBit 0x1B 1 0x20000004 0 8 3) idleM0) (fun t =>
    decide (Buf.cell? t.tx.buf 6 = some 0x00 ∧ t.trace = [.memRead 0x20000004 0xE1])) = true := by decide +kernel

/-- V-WR-3, and 90_conflicts C1: 0xF5, not 0xED. -/
theorem test_write_bit_command :
    after (exec (.write 0x23 [0x01, 0x04, 0x00, 0x00, 0x20, 0x00, 0x00, 0x02, 0x03, 0x05]) idleM0) (fun t =>
      staged t [0xAA, 0x01, 0x00, 0x82, 0x23, 0x00, 0xE4, 0xC5] &&
        decide (t.byteAt 0x20000004 = 0xF5)) = true := by decide +kernel

/-- V-WR-12. -/
theorem test_write_count_zero : after (exec (.write 0x2C [0x00]) idleM0) (fun t =>
    staged t [0xAA, 0x01, 0x00, 0xFF, 0x2C, 0x03, 0xE0, 0x7F]) = true := by decide +kernel

/-- V-WR-2. -/
theorem test_write_full : after (exec (.writeFull 0x22 0x20000000 4 0 [0x11, 0x22, 0x33, 0x44]) idleM0) (fun t =>
    decide ((t.mem.take 4).map Prod.snd = [0x11, 0x22, 0x33, 0x44] ∧ t.trace.length = 4)) = true := by decide +kernel

/-- V-WR-4, second element: one data byte of two. -/
theorem test_write_full_short : after (exec (.writeFull 0x24 0x20000002 2 0 [0xEF]) idleM0) (fun t =>
    staged t [0xAA, 0x01, 0x00, 0xFF, 0x24, 0x03, 0x49, 0xF6] && decide (t.mem = idleM0.mem)) = true := by decide +kernel

/-- V-WR-15: bits of the value above the width do not land. -/
theorem test_write_bit : after (exec (.writeBit 0x2F 0x20000004 0 2 3 [0xFD]) idleM0) (fun t =>
    decide (t.trace = [.memRead 0x20000004 0xE1, .memWrite 0x20000004 0xF5])) = true := by decide +kernel

/-- V-WR-16: an empty mask still writes the old byte back. -/
theorem test_write_bit_empty_mask : after (exec (.writeBit 0x30 0x20000004 0 8 3 [0xFF]) idleM0) (fun t =>
    decide (t.trace = [.memRead 0x20000004 0xE1, .memWrite 0x20000004 0xE1])) = true := by decide +kernel

/-- R47: a target store between the read and the write of a bitfield is lost. -/
theorem test_write_bit_loses_target_store :
    after (exec (.writeBit 0x2F 0x20000004 0 2 3 [0xFD]) { idleM0 with target := [[], [⟨0x20000004, 0x00⟩]] }) (fun t =>
      decide (t.byteAt 0x20000004 = 0xF5 ∧ t.target = [])) = true := by decide +kernel

/-- V-DSP-1. -/
theorem test_ping : after (exec (.ping 0x05 [1]) idle) (fun t =>
    staged t [0xAA, 0x00, 0x00, 0x83, 0x05, 0xA8, 0x63]) = true := by decide +kernel

/-- V-DSP-3. -/
theorem test_unknown : after (exec (.unknown 0x42 0x07 []) idle) (fun t =>
    staged t [0xAA, 0x01, 0x00, 0xFF, 0x07, 0x04, 0x1B, 0xD5]) = true := by decide +kernel

/-- V-DSP-1's response, by ENCODE over no payload. -/
theorem test_encode : after (exec (.encode .pong 0x05 0) idle) (fun t =>
    staged t [0xAA, 0x00, 0x00, 0x83, 0x05, 0xA8, 0x63]) = true := by decide +kernel

/-- V-RD-4's response. -/
theorem test_read_resp : after (exec (.readResp 0x14 1 [0x78, 0x56, 0x34, 0x12]) idle) (fun t =>
    staged t [0xAA, 0x05, 0x00, 0x81, 0x14, 0x01, 0x78, 0x56, 0x34, 0x12, 0x1B, 0xAA]) = true := by decide +kernel

/-- V-WR-2's response. -/
theorem test_write_resp : after (exec (.writeResp 0x22) idle) (fun t =>
    staged t [0xAA, 0x01, 0x00, 0x82, 0x22, 0x00, 0xD5, 0xF6]) = true := by decide +kernel

/-- V-DSP-1's response. -/
theorem test_pong : after (exec (.pong 0x05) idle) (fun t =>
    staged t [0xAA, 0x00, 0x00, 0x83, 0x05, 0xA8, 0x63]) = true := by decide +kernel

/-- V-WR-4's response. -/
theorem test_error : after (exec (.error .invalidSize 0x24) idle) (fun t =>
    staged t [0xAA, 0x01, 0x00, 0xFF, 0x24, 0x03, 0x49, 0xF6]) = true := by decide +kernel

/-! ### States that meet the statements' hypotheses -/

/-- The invariant as a check. -/
def invCheck (s : State) : Bool :=
  Memory.wf s.mem && decide (s.rx.buf.length = s.cfg.rxCap) &&
    decide (s.rx.state.pastCheck = true → s.rx.len.toNat ≤ s.cfg.maxPayload) &&
    decide (s.rx.state = .payload → s.rx.idx.toNat < s.rx.len.toNat) &&
    (List.range (rxExtent s.rx)).all (fun i => (Buf.cell? s.rx.buf i).isSome) &&
    decide (s.tx.buf.length = s.cfg.txCap) && decide (s.tx.len ≤ 7 + s.cfg.maxPayload) &&
    decide (s.tx.state = .sending → 1 ≤ s.tx.idx ∧ s.tx.idx < s.tx.len) &&
    (List.range s.tx.len).all (fun i => (Buf.cell? s.tx.buf i).isSome)

theorem inv_of_check {s : State} (h : invCheck s = true) : s.Inv := by
  simp only [invCheck, Bool.and_eq_true, decide_eq_true_eq, List.all_eq_true, List.mem_range] at h
  obtain ⟨⟨⟨⟨⟨⟨⟨⟨hm, hr⟩, hl⟩, hi⟩, hw⟩, ht⟩, hn⟩, hx⟩, hv⟩ := h
  exact ⟨hm, fun _ => ⟨hr, hl, hi, hw⟩, fun _ => ⟨ht, hn, hx, fun _ => hv⟩⟩

theorem served_of_check {p : Params} {as : List Addr} (h : as.all p.serves = true) : servesAll p as :=
  List.all_eq_true.mp h

theorem elems_served_of_check {p : Params} {α : Type} {xs : List α} {f : α → List Addr}
    (h : xs.all (fun x => (f x).all p.serves) = true) : ∀ x ∈ xs, servesAll p (f x) :=
  fun x hx => served_of_check (List.all_eq_true.mp h x hx)

theorem test_inv_idle : idle.Inv := inv_of_check (by decide +kernel)
theorem test_inv_idleM0 : idleM0.Inv := inv_of_check (by decide +kernel)
theorem test_inv_partMapped : partMapped.Inv := inv_of_check (by decide +kernel)
theorem test_inv_sending : sending.Inv := inv_of_check (by decide +kernel)
theorem test_running_idle : Running idle := ⟨rfl, by decide +kernel, rfl⟩
theorem test_running_idleM0 : Running idleM0 := ⟨rfl, by decide +kernel, rfl⟩
theorem test_running_partMapped : Running partMapped := ⟨rfl, by decide +kernel, rfl⟩
theorem test_running_sending : Running sending := ⟨rfl, by decide +kernel, rfl⟩

theorem running_rxAt (st : RxState) (bs : List Byte) (len idx : Half) : Running (rxAt st bs len idx) :=
  ⟨rfl, by show tiny.ok = true; decide +kernel, rfl⟩

theorem test_hyp_InitLeavesResetValues : sending.fault = none ∧ sending.cfg.ok = true := by decide +kernel
theorem test_hyp_FaultedBlockHasNoStep : (idle.raised .txOverrun).fault = some .txOverrun := rfl
theorem test_hyp_EntryBeforeInitRefused : ({ idle with init := false } : State).fault = none ∧ idle.cfg.ok = true ∧
    ({ idle with init := false } : State).init = false ∧ (Instr.rx 0).isEntry = true ∧ ∀ e, Instr.rx 0 ≠ .init e :=
  ⟨rfl, by decide +kernel, rfl, rfl, fun _ h => by cases h⟩
theorem test_hyp_BrokenConfigurationRefused_codes : idle.fault = none ∧
    ¬ (({ tiny with cmdPing := 0x01 } : Params).commands.Nodup) := by decide +kernel
theorem test_hyp_BrokenConfigurationRefused_bounds : ({ tiny with maxPayload := 65536 } : Params).ok = false ∧
    ({ tiny with maxPayload := 0 } : Params).ok = false ∧ ({ tiny with maxVars := 256 } : Params).ok = false ∧
    ({ tiny with maxVars := 0 } : Params).ok = false ∧ ({ tiny with errCrc := 0 } : Params).ok = false ∧
    ({ tiny with maxPayload := 65535, maxVars := 255 } : Params).ok = true := by decide +kernel
theorem test_hyp_Crc16ShowsItsResult : ({ idle with init := false } : State).fault = none ∧
    ({ idle with init := false } : State).cfg.ok = true := by decide +kernel
theorem test_hyp_BusyAnswersSending : Running sending ∧ (idle.raised .memUnmapped).fault = some .memUnmapped ∧
    ({ idle with init := false } : State).fault = none ∧ ({ idle with init := false } : State).cfg.ok = true :=
  ⟨test_running_sending, rfl, rfl, by decide +kernel⟩
theorem test_hyp_BusyFlagWriters_slot : after (exec .txslot { sending with tx := { sending.tx with idx := 6 } })
    (fun t => !t.isBusy) = true ∧ sending.isBusy = true ∧ Instr.txslot.isEntry = true := by decide +kernel
theorem test_hyp_BusyFlagWriters_rx : after (exec (.rx 0x78) (rxAt .crcHigh pingHead 0 0)) State.isBusy = true ∧
    (rxAt .crcHigh pingHead 0 0).isBusy = false := by decide +kernel
theorem test_hyp_RxIdleWaitsForMarker : Running idle ∧ idle.rx.state = .idle ∧ (0xAB : Byte) ≠ idle.cfg.startMarker ∧
    (0xAA : Byte) = idle.cfg.startMarker := ⟨test_running_idle, rfl, by decide, rfl⟩
theorem test_hyp_RxLengthAndCapacity_low : Running (rxAt .lenLow [0xAA] 0 0) ∧ (rxAt .lenLow [0xAA] 0 0).Inv :=
  ⟨running_rxAt _ _ _ _, inv_of_check (by decide +kernel)⟩

/-- Length 12 is the capacity, 13 is over it. -/
theorem test_hyp_RxLengthAndCapacity_high : Running (rxAt .lenHigh [0xAA, 12] 12 0) ∧
    Running (rxAt .lenHigh [0xAA, 13] 13 0) ∧ (rxAt .lenHigh [0xAA, 12] 12 0).Inv ∧ (rxAt .lenHigh [0xAA, 13] 13 0).Inv ∧
    after (exec (.rx 0) (rxAt .lenHigh [0xAA, 12] 12 0)) (fun t => decide (t.rx.state = .command)) = true ∧
    after (exec (.rx 0) (rxAt .lenHigh [0xAA, 13] 13 0)) (fun t => decide (t.rx.state = .idle)) = true :=
  ⟨running_rxAt _ _ _ _, running_rxAt _ _ _ _, inv_of_check (by decide +kernel), inv_of_check (by decide +kernel), by decide +kernel, by decide +kernel⟩
theorem test_hyp_RxCapturesCommand : Running (rxAt .command [0xAA, 0, 0] 0 0) ∧ (rxAt .command [0xAA, 0, 0] 0 0).Inv :=
  ⟨running_rxAt _ _ _ _, inv_of_check (by decide +kernel)⟩

/-- An empty payload, one byte, and a payload that fills the capacity. -/
theorem test_hyp_RxSequenceAndCrcLow : (∀ st bs len idx, Running (rxAt st bs len idx)) ∧
    (rxAt .sequence [0xAA, 0, 0, 3] 0 0).Inv ∧ (rxAt .sequence [0xAA, 1, 0, 3] 1 0).Inv ∧
    (rxAt .crcLow [0xAA, 0, 0, 3, 5] 0 0).Inv ∧ (rxAt .crcLow ([0xAA, 12, 0, 3, 5] ++ List.replicate 12 1) 12 12).Inv :=
  ⟨running_rxAt, inv_of_check (by decide +kernel), inv_of_check (by decide +kernel), inv_of_check (by decide +kernel),
    inv_of_check (by decide +kernel)⟩
theorem test_hyp_RxPayloadCountsBytes : (∀ st bs len idx, Running (rxAt st bs len idx)) ∧
    (rxAt .payload [0xAA, 2, 0, 3, 5] 2 0).Inv ∧ (rxAt .payload [0xAA, 2, 0, 3, 5, 9] 2 1).Inv :=
  ⟨running_rxAt, inv_of_check (by decide +kernel), inv_of_check (by decide +kernel)⟩
theorem test_hyp_RxCrcHighDispatches : Running (rxAt .crcHigh pingHead 0 0) ∧ (rxAt .crcHigh pingHead 0 0).Inv :=
  ⟨running_rxAt _ _ _ _, inv_of_check (by decide +kernel)⟩
theorem test_hyp_DeliveredFrameRunsItsRequest : Running idle ∧ idle.Inv ∧ idle.rx.state = .idle ∧ idle.tx.state = .idle ∧
    ([0xAA] : List Byte).length ≤ idle.cfg.maxPayload ∧ le16 0x30 0x78 = crc16 (frameBody tiny 0x03 0x05 []) ∧
    le16 0x30 0x79 ≠ crc16 (frameBody tiny 0x03 0x05 []) :=
  ⟨test_running_idle, test_inv_idle, rfl, rfl, by decide +kernel, by decide +kernel, by decide +kernel⟩
theorem test_hyp_RxAndTxslotCommute : Running sending ∧ sending.Inv ∧ sending.rx.state ≠ .crcHigh :=
  ⟨test_running_sending, test_inv_sending, by decide⟩

/-- `idle` with three payload bytes staged. -/
def stagedThree : State := { idle with tx := { idle.tx with buf := blankBuf 5 ++ [some 3, some 1, some 2] ++ blankBuf 11 } }
theorem test_hyp_EncodeStagesWholeFrame : Running stagedThree ∧ stagedThree.tx.state = .idle ∧
    3 ≤ stagedThree.cfg.maxPayload ∧ Buf.span? stagedThree.tx.buf 5 3 = some [3, 1, 2] :=
  ⟨⟨rfl, by decide +kernel, rfl⟩, rfl, by decide +kernel, by decide +kernel⟩
theorem test_hyp_TxslotEmitsNextByte : Running sending ∧ sending.Inv ∧ sending.tx.state = .sending :=
  ⟨test_running_sending, test_inv_sending, rfl⟩
theorem test_hyp_TxslotIdleDoesNothing : Running idle ∧ idle.tx.state = .idle := ⟨test_running_idle, rfl⟩
theorem test_hyp_StagedFrameGoesOutInOrder : Running sending ∧ sending.tx.state = .sending ∧ sending.tx.idx = 1 ∧
    sending.tx.len = 7 ∧ Buf.span? sending.tx.buf 0 7 = some [0xAA, 0, 0, 0x83, 5, 0xA8, 0x63] :=
  ⟨test_running_sending, rfl, rfl, rfl, by decide +kernel⟩

/-- Eleven values and the count byte fill the capacity of 12. -/
theorem test_hyp_ReadRespAnswers : Running idle ∧ idle.Inv ∧ idle.tx.state = .idle ∧
    1 + (List.replicate 11 (0 : Byte)).length ≤ idle.cfg.maxPayload :=
  ⟨test_running_idle, test_inv_idle, rfl, by decide +kernel⟩

/-- Also the hypotheses of PingAnswersEmptyPong and UnknownCommandAnswersError. -/
theorem test_hyp_WriteRespAndErrorAnswer : Running idle ∧ idle.Inv ∧ idle.tx.state = .idle :=
  ⟨test_running_idle, test_inv_idle, rfl⟩
theorem test_hyp_CompletionWhileSendingOverruns : Running sending ∧ sending.tx.state = .sending :=
  ⟨test_running_sending, rfl⟩

/-- The good and the bad PING frame of V-DSP-1 and V-DSP-2, received whole: the hypotheses of GoodFrameIsRouted,
DispatchedPingAnswersPong and CrcMismatchAnswersError. -/
theorem test_hyp_dispatch_frames :
    (∀ b, Running (rxAt .crcHigh (pingHead ++ [b]) 0 0) ∧ (rxAt .crcHigh (pingHead ++ [b]) 0 0).tx.state = .idle) ∧
    (rxAt .crcHigh (pingHead ++ [0x79]) 0 0).Inv ∧ (0x03 : Byte) = tiny.cmdPing ∧
    frameIn (rxAt .crcHigh (pingHead ++ [0x78]) 0 0).rx.buf 0 =
      some ⟨0x03, 0x05, [], [0xAA, 0, 0, 0x03, 0x05], 0x7830⟩ ∧
    frameIn (rxAt .crcHigh (pingHead ++ [0x79]) 0 0).rx.buf 0 =
      some ⟨0x03, 0x05, [], [0xAA, 0, 0, 0x03, 0x05], 0x7930⟩ ∧
    crc16 [0xAA, 0, 0, 0x03, 0x05] = 0x7830 :=
  ⟨fun _ => ⟨running_rxAt _ _ _ _, rfl⟩, inv_of_check (by decide +kernel), rfl, by decide +kernel, by decide +kernel, by decide +kernel⟩
theorem test_hyp_OneResponsePerCompletedFrame : (rxAt .crcHigh (pingHead ++ [0x78]) 0 0).Inv ∧
    after (exec .dispatch (rxAt .crcHigh (pingHead ++ [0x78]) 0 0)) (fun t => decide (t.fault = none)) = true :=
  ⟨inv_of_check (by decide +kernel), by decide +kernel⟩

/-- No room by one byte, exactly room, and served for two bytes only. -/
theorem test_hyp_ReadFullStagesRawBytes : Running partMapped ∧ partMapped.Inv ∧ partMapped.tx.state = .idle ∧
    1 + (12 : Half).toNat > partMapped.cfg.maxPayload ∧ 1 + (11 : Half).toNat ≤ partMapped.cfg.maxPayload ∧
    servesAll partMapped.cfg (spanAddrs 0x20000000 2) ∧ partMapped.cfg.serves (0x20000000 + BitVec.ofNat 32 2) = false :=
  ⟨test_running_partMapped, test_inv_partMapped, rfl, by decide +kernel, by decide +kernel,
    served_of_check (by decide +kernel), by decide +kernel⟩
theorem test_hyp_ReadBitStagesField : Running partMapped ∧ partMapped.Inv ∧ partMapped.tx.state = .idle ∧ 12 + 1 > partMapped.cfg.maxPayload ∧
    11 + 1 ≤ partMapped.cfg.maxPayload ∧ partMapped.cfg.serves 0x20000001 = true ∧ partMapped.cfg.serves 0x20000002 = false :=
  ⟨test_running_partMapped, test_inv_partMapped, rfl, by decide +kernel, by decide +kernel, by decide +kernel, by decide +kernel⟩

/-- Count 0, count 4 of at most 3, and one byte short of one descriptor; the first two are WriteValidationErrors' too. -/
theorem test_hyp_ReadValidationErrors : Running idle ∧ idle.tx.state = .idle ∧ (0 : Byte).toNat = 0 ∧
    (4 : Byte).toNat > idle.cfg.maxVars ∧ (1 :: List.replicate 7 (0 : Byte)).length < 1 + 8 * (1 : Byte).toNat :=
  ⟨test_running_idle, rfl, rfl, by decide +kernel, by decide +kernel⟩

/-- V-RD-6's descriptors. -/
def threeDescs : List Desc := [⟨0x20000000, 2, 0xFF, 0⟩, ⟨0x20000004, 0, 2, 3⟩, ⟨0x20000002, 2, 0xFF, 0⟩]
theorem test_hyp_ReadAnswersValues : Running idleM0 ∧ idleM0.Inv ∧ idleM0.tx.state = .idle ∧ idleM0.target = [] ∧
    1 ≤ threeDescs.length ∧ threeDescs.length ≤ idleM0.cfg.maxVars ∧
    threeDescs.flatMap (descValue idleM0.mem) = [0x78, 0x56, 0x00, 0x34, 0x12] ∧
    1 + (threeDescs.flatMap (descValue idleM0.mem)).length ≤ idleM0.cfg.maxPayload ∧
    ∀ d ∈ threeDescs, servesAll idleM0.cfg (descAddrs d) :=
  ⟨test_running_idleM0, test_inv_idleM0, rfl, rfl, by decide, by decide +kernel, by decide +kernel, by decide +kernel,
    elems_served_of_check (by decide +kernel)⟩

/-- V-RD-8 with a capacity of 12: the first value fills it, the bitfield does not fit. -/
theorem test_hyp_ReadOverCapacityAborts : Running idleM0 ∧ idleM0.Inv ∧ idleM0.tx.state = .idle ∧ idleM0.target = [] ∧
    ([⟨0x20000000, 11, 0xFF, 0⟩, ⟨0x20000004, 0, 0, 8⟩] : List Desc).length ≤ idleM0.cfg.maxVars ∧
    1 + (([⟨0x20000000, 11, 0xFF, 0⟩] : List Desc).flatMap (descValue idleM0.mem)).length = idleM0.cfg.maxPayload ∧
    (descValue idleM0.mem ⟨0x20000004, 0, 0, 8⟩).length = 1 ∧
    ∀ d ∈ ([⟨0x20000000, 11, 0xFF, 0⟩] : List Desc), servesAll idleM0.cfg (descAddrs d) :=
  ⟨test_running_idleM0, test_inv_idleM0, rfl, rfl, by decide +kernel, by decide +kernel, by decide +kernel,
    elems_served_of_check (by decide +kernel)⟩
theorem test_hyp_ReadFamilyFrame : idleM0.targetLeaves 0x20000000 ∧
    after (exec (.readBit 0x15 1 0x20000004 0 5 3) idleM0) (fun _ => true) = true :=
  ⟨fun _ h => (by cases h), by decide +kernel⟩
theorem test_hyp_WriteFullStoresVerbatim : Running partMapped ∧ partMapped.tx.state = .idle ∧
    ([1, 2] : List Byte).length < (3 : Half).toNat ∧ (2 : Half).toNat ≤ ([1, 2] : List Byte).length ∧
    servesAll partMapped.cfg (spanAddrs 0x20000000 (2 : Half).toNat) ∧
    partMapped.cfg.serves (0x20000000 + BitVec.ofNat 32 2) = false :=
  ⟨test_running_partMapped, rfl, by decide, by decide, served_of_check (by decide +kernel), by decide +kernel⟩
theorem test_hyp_WriteBitReadsModifiesWrites : Running partMapped ∧ partMapped.tx.state = .idle ∧
    partMapped.cfg.serves 0x20000001 = true ∧ partMapped.cfg.serves 0x20000002 = false :=
  ⟨test_running_partMapped, rfl, by decide +kernel, by decide +kernel⟩

/-- V-WR-14's elements: they overlap. -/
def twoElems : List WriteElem := [⟨⟨0x20000000, 2, 0xFF, 0⟩, [1, 2]⟩, ⟨⟨0x20000001, 1, 0xFF, 0⟩, [9]⟩]
theorem test_hyp_WriteAppliesElements : Running idleM0 ∧ idleM0.Inv ∧ idleM0.tx.state = .idle ∧ idleM0.target = [] ∧
    1 ≤ twoElems.length ∧ twoElems.length ≤ idleM0.cfg.maxVars ∧
    (∀ e ∈ twoElems, e.whole = true ∧ servesAll idleM0.cfg (descAddrs e.desc)) ∧
    Memory.read (storeElems idleM0.mem twoElems) 0x20000001 = 9 :=
  ⟨test_running_idleM0, test_inv_idleM0, rfl, rfl, by decide, by decide +kernel, fun e he => ⟨List.all_eq_true.mp (by decide +kernel : twoElems.all WriteElem.whole = true) e he,
      elems_served_of_check (f := fun e : WriteElem => descAddrs e.desc) (by decide +kernel) e he⟩,
    by decide +kernel⟩

/-- V-WR-4: the third element is short, by its header and by its data. -/
theorem test_hyp_ShortWriteIsNotRolledBack : Running idleM0 ∧ idleM0.Inv ∧ idleM0.tx.state = .idle ∧ idleM0.target = [] ∧
    (∀ e ∈ twoElems, e.whole = true ∧ servesAll idleM0.cfg (descAddrs e.desc)) ∧ twoElems.length < (3 : Byte).toNat ∧ (3 : Byte).toNat ≤ idleM0.cfg.maxVars ∧
    shortOfElem (List.replicate 7 0) ∧ shortOfElem [2, 0, 0, 0x20, 2, 0, 0xFF, 0, 0xEF] ∧
    shortOfElem [2, 0, 0, 0x20, 2, 0, 0, 8] := by
  refine ⟨test_running_idleM0, test_inv_idleM0, rfl, rfl, test_hyp_WriteAppliesElements.2.2.2.2.2.2.1, by decide,
    by decide +kernel, ?_, ?_, ?_⟩ <;>
    simp [shortOfElem, parseDesc, descDataLen, descIsFull, le16]
theorem test_hyp_StoredBytesReadBack : Memory.wf idleM0.mem = true ∧ ([1, 2] : List Byte).length ≤ 65535 ∧
    (1 : Addr) ∉ spanAddrs 0xFFFFFFFF 2 ∧ (0 : Addr) ∈ spanAddrs 0xFFFFFFFF 2 := by decide +kernel
theorem test_hyp_WriteFamilyFrame : idleM0.targetLeaves 0x20000000 ∧ (0x20000000 : Addr) ∉ spanAddrs 0x20000001 1 ∧
    after (exec (.writeFull 0 0x20000001 1 0 [9]) idleM0) (fun _ => true) = true :=
  ⟨fun _ h => (by cases h), by decide +kernel, by decide +kernel⟩

/-- A full variable that fills the capacity, and a bitfield whose upper bits lie beyond the byte. -/
theorem test_hyp_WriteThenReadRoundTrips : Running idleM0 ∧ idleM0.Inv ∧ idleM0.tx.state = .idle ∧ idleM0.target = [] ∧
    (List.replicate 11 (5 : Byte)).length = descDataLen ⟨0x20000000, 11, 0xFF, 0⟩ ∧
    1 + (List.replicate 11 (5 : Byte)).length ≤ idleM0.cfg.maxPayload ∧
    servesAll idleM0.cfg (descAddrs ⟨0x20000000, 11, 0xFF, 0⟩) ∧
    ([0xFD] : List Byte).length = descDataLen ⟨0x20000004, 0, 7, 3⟩ ∧ descIsFull ⟨0x20000004, 0, 7, 3⟩ = false ∧
    servesAll idleM0.cfg (descAddrs ⟨0x20000004, 0, 7, 3⟩) :=
  ⟨test_running_idleM0, test_inv_idleM0, rfl, rfl, by decide +kernel, by decide +kernel, served_of_check (by decide +kernel),
    by decide +kernel, by decide +kernel, served_of_check (by decide +kernel)⟩
theorem test_hyp_StepRunsNextDelivery : ({ idle with pending := [.txslot] } : State).fault = none ∧
    Instr.txslot.wf idle.cfg = true ∧ idle.pending = [] := ⟨rfl, rfl, rfl⟩
theorem test_hyp_FetchWordIsRunNext : idle.fault = none ∧ decodeTableWord 16 0xAA01 = some (.rx 0xAA) ∧
    (Instr.rx 0xAA).wf idle.cfg = true := by decide +kernel
theorem test_hyp_StepKeepsInvariant : ({ sending with pending := [.txslot] } : State).Inv ∧
    after (step { sending with pending := [.txslot] }) (fun t => decide (t.tx.idx = 2)) = true :=
  ⟨inv_of_check (by decide +kernel), by decide +kernel⟩
theorem test_hyp_EntryPointsNeverMisuseBuffers : (sending.raised .txOverrun).Inv ∧ Instr.busy.isEntry = true ∧
    (match exec .busy (sending.raised .txOverrun) with | .fault f => decide (f = .stuck .txOverrun) | _ => false) = true :=
  ⟨inv_of_check (by decide +kernel), rfl, by decide +kernel⟩
theorem test_hyp_ConfigurationIsConstant : after (exec .busy sending) (fun _ => true) = true ∧
    ∀ e, Instr.busy ≠ .init e := ⟨by decide +kernel, fun _ h => by cases h⟩

/-- Also the hypotheses of RegisterOnlyFrame for a response. -/
theorem test_hyp_RegisterOnlyFrame : after (exec (.encode .pong 5 0) idle) (fun _ => true) = true := by decide +kernel
theorem test_hyp_IncompleteRxFrame : idle.rx.state ≠ .crcHigh ∧ after (exec (.rx 0xAA) idle) (fun _ => true) = true := by
  decide +kernel

/-- A frame completing while Sending, and a READ of an unmapped address. -/
theorem test_hyp_OnlyCompletedFramesRaiseFaults :
    after (exec (.rx 0x78) { rxAt .crcHigh pingHead 0 0 with tx := sending.tx }) (fun t => decide (t.fault = some .txOverrun))
      = true ∧
    after (exec (.rx 0xE0) { rxAt .crcHigh [0xAA, 0x09, 0x00, 0x01, 0x1D, 0x01, 0x00, 0x00, 0x00, 0x40, 0x02, 0x00, 0xFF, 0x00, 0x73]
        9 9 with cfg := { tiny with regions := [⟨0, 0x40000000⟩] } }) (fun t => decide (t.fault = some .memUnmapped)) = true := by
  decide +kernel
theorem test_hyp_DecodeInvertsEncode : tiny.ok = true ∧ (Instr.unknown 0xFF 1 [2]).wf tiny = true := by decide +kernel
theorem test_hyp_FrameHasOneReading : decodeFrame .rc [0xAA, 0x00, 0x00, 0x03, 0x05, 0x30, 0x78] = .ok ⟨0x03, 0x05, []⟩ := by
  decide +kernel
theorem test_hyp_FrameLayout : (List.replicate 300 (1 : Byte)).length ≤ 65535 ∧
    (frameBytes .rc 3 5 (List.replicate 300 1)).take 3 = [0xAA, 0x2C, 0x01] := by decide +kernel
theorem test_hyp_CrcSeesOneChangedByte : (0 : Byte) ≠ 1 := by decide
theorem test_hyp_BitfieldBits : (7 : Nat) < 8 ∧ insertField 0x12 0x07 7 3 = 0x92 := by decide +kernel

end Sys2Proof.Tests
end

/-! PROOFS. Byte order (R15, R43), the fields of a descriptor (R65) and the layout of a frame (R60 to R63). -/

namespace Sys2Proof.Machine

open Sys2Proof

/-! ### The number that little-endian bytes stand for (R15, R43) -/

theorem toNat_append_eq_add {w v : Nat} (hi : BitVec w) (lo : BitVec v) :
    (hi ++ lo).toNat = lo.toNat + 2 ^ v * hi.toNat := by
  rw [BitVec.toNat_append, ← Nat.shiftLeft_add_eq_or_of_lt lo.isLt, Nat.shiftLeft_eq, Nat.mul_comm, Nat.add_comm]

/-- The OR of `le16` joins disjoint bits: it is the high byte put before the low one. -/
theorem le16_eq_append (lo hi : Byte) : le16 lo hi = hi ++ lo := by
  rw [le16, BitVec.or_comm, BitVec.append_def, BitVec.shiftLeftZeroExtend_eq]
  rfl

theorem le32_eq_append (b0 b1 b2 b3 : Byte) : le32 b0 b1 b2 b3 = le16 b2 b3 ++ le16 b0 b1 := by
  ext i hi
  simp only [le32, le16, BitVec.getElem_or, BitVec.getElem_setWidth, BitVec.getElem_shiftLeft]
  grind

theorem le16_toNat (lo hi : Byte) : (le16 lo hi).toNat = lo.toNat + 2 ^ 8 * hi.toNat := by
  rw [le16_eq_append, toNat_append_eq_add]

theorem le32_toNat (b0 b1 b2 b3 : Byte) :
    (le32 b0 b1 b2 b3).toNat = b0.toNat + 2 ^ 8 * b1.toNat + 2 ^ 16 * b2.toNat + 2 ^ 24 * b3.toNat := by
  rw [le32_eq_append, toNat_append_eq_add, le16_toNat, le16_toNat]
  omega

/-! ### The bytes of a number, least significant first (R43) -/

theorem lo8_toNat (v : Nat) : (lo8 v).toNat = v % 2 ^ 8 := BitVec.toNat_ofNat v 8

theorem hi8_toNat (v : Nat) : (hi8 v).toNat = v / 2 ^ 8 % 2 ^ 8 := by
  rw [hi8, BitVec.toNat_ofNat, Nat.shiftRight_eq_div_pow]

theorem lo8_add_hi8 {v : Nat} (h : v < 2 ^ 16) : (lo8 v).toNat + 2 ^ 8 * (hi8 v).toNat = v := by
  rw [lo8_toNat, hi8_toNat]
  omega

/-- The two bytes of a number are fixed by its low 16 bits. -/
theorem bytes16_eq {v : Nat} {lo hi : Byte} (h : v % 2 ^ 16 = lo.toNat + 2 ^ 8 * hi.toNat) :
    bytes16 v = [lo, hi] := by
  have hlo : lo8 v = lo := BitVec.eq_of_toNat_eq (by rw [lo8_toNat]; omega)
  have hhi : hi8 v = hi := BitVec.eq_of_toNat_eq (by rw [hi8_toNat]; omega)
  rw [bytes16, hlo, hhi]

theorem bytes16_le16 (lo hi : Byte) : bytes16 (le16 lo hi).toNat = [lo, hi] :=
  bytes16_eq (by rw [le16_toNat]; omega)

/-- The four bytes of a word: the two of its low half, then the two of its high half. -/
theorem bytes32_eq_bytes16 (a : BitVec 32) : bytes32 a = bytes16 a.toNat ++ bytes16 (a.toNat >>> 16) := by
  simp only [bytes32, bytes16, lo8, hi8, ← BitVec.ofNat_toNat, BitVec.toNat_ushiftRight, ← Nat.shiftRight_add,
    List.cons_append, List.nil_append]

theorem bytes32_le32 (b0 b1 b2 b3 : Byte) : bytes32 (le32 b0 b1 b2 b3) = [b0, b1, b2, b3] := by
  rw [bytes32_eq_bytes16, le32_toNat, Nat.shiftRight_eq_div_pow,
    bytes16_eq (lo := b0) (hi := b1) (by omega), bytes16_eq (lo := b2) (hi := b3) (by omega)]
  rfl

/-! ### Descriptors (R65) -/

/-- Settles O56: each word is the number its bytes stand for, and the bytes of that number are the same bytes. -/
theorem descriptorFieldsAreLittleEndian : Obligations.DescriptorFieldsAreLittleEndian := by
  intro d0 d1 d2 d3 d4 d5 d6 d7 rest
  refine ⟨⟨le32 d0 d1 d2 d3, le16 d4 d5, d6, d7⟩, rfl, le32_toNat d0 d1 d2 d3, le16_toNat d4 d5, rfl, rfl, ?_⟩
  rw [descBytes, bytes32_le32, bytes16_le16]
  rfl

/-! ### Frames (R60 to R63) -/

section Frame

variable (p : Params) (cmd seq : Byte) (payload : List Byte)

/-- The CRC covers the first `5 + L` bytes of the frame (R63). -/
theorem frameBytes_take_body : (frameBytes p cmd seq payload).take (5 + payload.length) = frameBody p cmd seq payload :=
  List.take_left' (frameBody_length p cmd seq payload)

/-- After the body stand the bytes of its CRC, low byte first (R62). -/
theorem frameBytes_drop_body : (frameBytes p cmd seq payload).drop (5 + payload.length) =
    bytes16 (crc16 (frameBody p cmd seq payload)).toNat :=
  List.drop_left' (frameBody_length p cmd seq payload)

/-- After the five header bytes stand the payload and the CRC (R60). -/
theorem frameBytes_drop_header : (frameBytes p cmd seq payload).drop 5 =
    payload ++ bytes16 (crc16 (frameBody p cmd seq payload)).toNat := rfl

theorem frameBytes_crc_at (i : Nat) : (frameBytes p cmd seq payload)[5 + payload.length + i]? =
    (bytes16 (crc16 (frameBody p cmd seq payload)).toNat)[i]? := by
  rw [← List.getElem?_drop, frameBytes_drop_body]

end Frame

/-- Settles O57: the header fields stand where `frameBody` writes them, a length below 2^16 is the number of its two bytes, and
the CRC's two bytes follow the body it covers. -/
theorem frameLayout : Obligations.FrameLayout := by
  intro p cmd seq payload hL F L
  refine ⟨frameBytes_length p cmd seq payload, frameBytes_head p cmd seq payload,
    ⟨lo8 L, hi8 L, rfl, rfl, lo8_add_hi8 (by omega)⟩, rfl, rfl, ?_, ?_⟩
  · rw [frameBytes_drop_header, List.take_left]
  · rw [frameBytes_take_body]
    refine ⟨_, _, frameBytes_crc_at p cmd seq payload 0, ?_, lo8_add_hi8 (crc16 _).isLt⟩
    rw [show 6 + L = 5 + L + 1 by omega]
    exact frameBytes_crc_at p cmd seq payload 1

end Sys2Proof.Machine


/-! PROOFS. The receiver in Idle, Command and Payload (R101, R104, R106). -/

namespace Sys2Proof.Machine

open Sys2Proof

/-- On a running block RX is the rule of the receiver's state. -/
theorem exec_rx_of_running {s : State} (hr : Running s) (b : Byte) : exec (.rx b) s = (receive b s).outcome :=
  whenRunning_of hr fun s => (receive b s).outcome

/-- The cell after the bytes received so far lies in the receive buffer: each is one of the frame's first `7 + rx.len`
cells, and `rx.len` is checked before any cell past the header's first three is used (R22, R23). -/
theorem RxInv.extent_lt {p : Params} {r : RxCtx} (h : RxInv p r) : rxExtent r < r.buf.length := by
  have hcap : r.buf.length = 7 + p.maxPayload := h.cap
  have hlen := h.len
  have hidx := h.idx
  cases hst : r.state <;> simp [rxExtent, hst, RxState.pastCheck] at hlen hidx ⊢ <;> omega

/-- Under the invariant the byte that follows those received so far is always stored. -/
theorem rxPut_at_extent {s : State} {i : Nat} (hr : Running s) (hi : s.Inv) (he : rxExtent s.rx = i) (v : Byte) :
    rxPut i v s = .done () (s.withRx { s.rx with buf := s.rx.buf.set i (some v) }) :=
  rxPut_of_lt v (he ▸ (hi.rx hr.inited).extent_lt)

/-- The end test of R106 is made on u16 values; below `rx.len` the index does not wrap, so it is the test on numbers. -/
theorem half_succ_eq_iff {i n : Half} (h : i.toNat < n.toNat) : i + 1 = n ↔ i.toNat + 1 = n.toNat := by
  bv_omega

/-- In Idle the marker goes to cell 0 of a cleared buffer and starts a frame (R101, R35 (a)). -/
theorem rxIdle_marker (s : State) :
    rxIdle s.cfg.startMarker s = .done () (s.withRx
      ⟨.lenLow, (blankBuf s.cfg.rxCap).set 0 (some s.cfg.startMarker), s.rx.len, s.rx.idx⟩) := by
  have hlt : 0 < (blankBuf s.cfg.rxCap).length := by simp [Params.rxCap]
  rw [rxIdle, if_pos rfl, rxPut_of_lt _ hlt]
  rfl

theorem rxIdle_other {b : Byte} {s : State} (h : b ≠ s.cfg.startMarker) : rxIdle b s = .done () s := if_neg h

/-- Settles O9: a byte other than the marker changes nothing, and the marker is cell 0 of the new frame. -/
theorem rxIdleWaitsForMarker : Obligations.RxIdleWaitsForMarker := by
  intro b s hr hst
  have hx : exec (.rx b) s = (rxIdle b s).outcome := by rw [exec_rx_of_running hr, receive, hst]
  constructor
  · intro hb
    rw [hx, rxIdle_other hb, outcome_done]
  · rintro rfl
    rw [rxIdle_marker, outcome_done] at hx
    exact ⟨_, hx, rfl, cell?_set_same _ (by simp [Params.rxCap]), rfl, rfl⟩

/-- Settles O11: cell 3 is the next one of the frame, and the byte's value is not looked at. -/
theorem rxCapturesCommand : Obligations.RxCapturesCommand := by
  intro b s hr hi hst
  have hput := rxPut_at_extent hr hi (i := 3) (by rw [rxExtent, hst]) b
  rw [exec_rx_of_running hr, receive, hst, rxCommand, hput]
  rfl

/-- Settles O13: the index is below the length (R24), so it does not wrap and the last byte is the one that makes them equal. -/
theorem rxPayloadCountsBytes : Obligations.RxPayloadCountsBytes := by
  intro b s hr hi hst
  have hput := rxPut_at_extent hr hi (i := 5 + s.rx.idx.toNat) (by rw [rxExtent, hst]) b
  have hidx : s.rx.idx.toNat < s.rx.len.toNat := (hi.rx hr.inited).idx hst
  simp only [← half_succ_eq_iff hidx]
  rw [exec_rx_of_running hr, receive, hst, rxPayload, hput]
  rfl

end Sys2Proof.Machine

/-! PROOFS. The dispatcher: UNKNOWN (R126), the answer to a CRC mismatch (R121) and the route (R122). -/

namespace Sys2Proof.Machine

open Sys2Proof

/-! ### The operations on a running block whose transmitter is Idle -/

section Idle

variable {s : State} (hr : Running s) (ht : s.tx.state = .idle)
include hr ht

/-- On a running block with the transmitter Idle an operation's guards hold, and it is its rule. -/
theorem whenRunning_requireIdle_of {α : Type} (k : State → Res α) :
    (whenRunning s fun s => (requireIdle s k).outcome) = (k s).outcome := by
  rw [whenRunning_of hr, requireIdle_idle ht]

theorem exec_error_of_idle (code : ErrCode) (seq : Byte) :
    exec (.error code seq) s = (errorResponse code seq s).outcome :=
  whenRunning_requireIdle_of hr ht (errorResponse code seq)

theorem exec_unknown_of_idle (cmd seq : Byte) (payload : List Byte) :
    exec (.unknown cmd seq payload) s = (errorResponse .unknownCmd seq s).outcome :=
  whenRunning_requireIdle_of hr ht (errorResponse .unknownCmd seq)

/-- The request that a command byte selects is what the route runs (R74, R122). -/
theorem exec_requestInstr_of_idle (cmd seq : Byte) (payload : List Byte) :
    exec (requestInstr s.cfg cmd seq payload) s = (route cmd seq payload s).outcome := by
  unfold requestInstr route
  cases decodeCommand s.cfg cmd with
  | read => exact whenRunning_requireIdle_of hr ht (readHandler seq payload)
  | write => exact whenRunning_requireIdle_of hr ht (writeHandler seq payload)
  | ping => exact whenRunning_requireIdle_of hr ht (pongResponse seq)
  | unknown => exact exec_unknown_of_idle hr ht cmd seq payload

/-- With the completed frame read, DISPATCH is its CRC check (R120, R121). -/
theorem exec_dispatch_of_frame {f : RxFrame} (hf : frameIn s.rx.buf s.rx.len.toNat = some f) :
    exec .dispatch s = (if crc16 f.covered = f.received then route f.cmd f.seq f.payload s
      else errorResponse .crc f.seq s).outcome := by
  have hc : completedFrame s = .done f s := by rw [completedFrame, hf]
  have hd : exec .dispatch s = (dispatch s).outcome := whenRunning_of hr fun s => (dispatch s).outcome
  rw [hd, dispatch, requireIdle_idle ht, hc, andThen_done]

/-- A matching CRC: DISPATCH is the request the frame encodes. -/
theorem exec_dispatch_of_crc_eq {f : RxFrame} (hf : frameIn s.rx.buf s.rx.len.toNat = some f)
    (hcrc : crc16 f.covered = f.received) :
    exec .dispatch s = exec (requestInstr s.cfg f.cmd f.seq f.payload) s := by
  rw [exec_dispatch_of_frame hr ht hf, if_pos hcrc, exec_requestInstr_of_idle hr ht]

/-- A CRC mismatch: DISPATCH is ERROR with ERR_CRC, whatever the command byte. -/
theorem exec_dispatch_of_crc_ne {f : RxFrame} (hf : frameIn s.rx.buf s.rx.len.toNat = some f)
    (hcrc : crc16 f.covered ≠ f.received) : exec .dispatch s = exec (.error .crc f.seq) s := by
  rw [exec_dispatch_of_frame hr ht hf, if_neg hcrc, exec_error_of_idle hr ht]

end Idle

/-! ### The error response -/

/-- An Emit is no memory event. -/
@[simp] theorem emit_accesses (b : Byte) (s : State) : (emit b s).accesses = s.accesses := by
  simp [State.accesses, Obs.isAccess]

@[simp] theorem withTx_accesses (t : TxCtx) (s : State) : (s.withTx t).accesses = s.accesses := rfl

/-- ERROR answers; it changes only the Transmit Context and the output, and makes no memory access (R127). -/
theorem exec_error_next {s : State} (hr : Running s) (hi : s.Inv) (ht : s.tx.state = .idle) (code : ErrCode) (seq : Byte) :
    ∃ t, exec (.error code seq) s = .next t ∧ t = { s with tx := t.tx, trace := t.trace } ∧ t.accesses = s.accesses := by
  obtain ⟨buf, -, he⟩ := errorResponse_of code seq (hi.tx hr.inited).cap (ok_bounds hr.cfgOk).1
  refine ⟨_, by rw [exec_error_of_idle hr ht, he, outcome_done], rfl, ?_⟩
  rw [withTx_accesses, emit_accesses]

/-! ### The obligations -/

/-- Settles O24: UNKNOWN and ERROR run the same error path. -/
theorem unknownCommandAnswersError : Obligations.UnknownCommandAnswersError := by
  intro cmd seq payload s hr hi ht
  obtain ⟨t, hnext, hframe⟩ := exec_error_next hr hi ht .unknownCmd seq
  have heq : exec (.unknown cmd seq payload) s = exec (.error .unknownCmd seq) s := by
    rw [exec_unknown_of_idle hr ht, exec_error_of_idle hr ht]
  exact ⟨t, heq.trans hnext, hnext, hframe⟩

/-- Settles O26: the mismatch branch of DISPATCH is ERROR, and no handler is entered. -/
theorem crcMismatchAnswersError : Obligations.CrcMismatchAnswersError := by
  intro s f hr hi ht hf hcrc
  obtain ⟨t, hnext, hframe⟩ := exec_error_next hr hi ht .crc f.seq
  exact ⟨t, (exec_dispatch_of_crc_ne hr ht hf hcrc).trans hnext, hnext, hframe⟩

/-- Settles O27: `requestInstr` tests the command byte in the order of R74. -/
theorem goodFrameIsRouted : Obligations.GoodFrameIsRouted := by
  intro s f hr ht hf hcrc
  rw [exec_dispatch_of_crc_eq hr ht hf hcrc, requestInstr, decodeCommand]
  split_ifs <;> rfl

end Sys2Proof.Machine

/-! PROOFS. The Response Encoder (R165), and the transmitter in Idle (R168). -/

namespace Sys2Proof.Machine

open Sys2Proof

/-! ### Encode -/

/-- A loaded buffer holds the bytes loaded, from cell 0 on. -/
theorem span?_of_load? {cap : Nat} {bytes : List Byte} {buf : Buf} (h : Buf.load? cap bytes = some buf) :
    Buf.span? buf 0 bytes.length = some bytes := by
  obtain ⟨-, hcell, -⟩ := load?_some h
  exact span?_of_cells fun i hi => by rw [Nat.zero_add, hcell i hi]

/-- Encode over a staged payload within the capacity answers with its frame (R165). -/
theorem encodeFrame_answers {s : State} {cmd : RespCode} {seq : Byte} {n : Nat} {payload : List Byte}
    (hp : Buf.span? s.tx.buf 5 n = some payload) (hn : n ≤ s.cfg.maxPayload) :
    ∃ t, encodeFrame cmd seq n s = .done () t ∧ Answers s t cmd seq payload := by
  obtain rfl : payload.length = n := (span?_some hp).1
  obtain ⟨buf, hload, henc⟩ := encodeFrame_of (cmd := cmd) (seq := seq) hp (Nat.add_le_add_left hn 7)
  have hspan := span?_of_load? hload
  rw [frameBytes_length] at hspan
  exact ⟨_, henc, buf, rfl, hspan⟩

theorem exec_encode_of_idle {s : State} (hr : Running s) (ht : s.tx.state = .idle) (cmd : RespCode) (seq : Byte) (n : Nat) :
    exec (.encode cmd seq n) s = (encodeFrame cmd seq n s).outcome :=
  whenRunning_requireIdle_of hr ht (encodeFrame cmd seq n)

/-- Settles O17: the frame that Encode answers with is the one of R60, written out. -/
theorem encodeStagesWholeFrame : Obligations.EncodeStagesWholeFrame := by
  intro c seq n payload s hr ht hn hp
  obtain rfl : payload.length = n := (span?_some hp).1
  obtain ⟨t, henc, buf, rfl, hspan⟩ := encodeFrame_answers (cmd := c) (seq := seq) hp hn
  exact ⟨buf, by rw [exec_encode_of_idle hr ht, henc, outcome_done], hspan⟩

/-! ### The transmitter in Idle -/

/-- Forcing Idle writes the state that already stands there (R168). -/
theorem txSlot_idle {s : State} (ht : s.tx.state = .idle) : txSlot s = .done () s := by
  have hsend : ¬(s.tx.state = .sending ∧ s.tx.idx < s.tx.len) := by simp [ht]
  rw [txSlot, if_neg hsend, ← ht, withTx_self]

theorem exec_txslot_of_running {s : State} (hr : Running s) : exec .txslot s = (txSlot s).outcome :=
  whenRunning_of hr fun s => (txSlot s).outcome

/-- An operation that leaves the state as it is does so any number of times. -/
theorem execAll_replicate_of_exec_self {i : Instr} {s : State} (h : exec i s = .next s) (n : Nat) :
    execAll (List.replicate n i) s = .next s := by
  induction n with
  | zero => rfl
  | succ n ih => rw [List.replicate_succ, execAll, h]; exact ih

/-- Settles O19, by induction on the number of events. -/
theorem txslotIdleDoesNothing : Obligations.TxslotIdleDoesNothing := by
  intro s n hr ht
  have hself : exec .txslot s = .next s := by rw [exec_txslot_of_running hr, txSlot_idle ht, outcome_done]
  exact ⟨hself, execAll_replicate_of_exec_self hself n⟩

end Sys2Proof.Machine

/-! PROOFS. The guards of every operation (R203, R204, R234), and the entry points that run no rule of the receiver or of the
transmitter (R186, R188, R230). -/

namespace Sys2Proof.Machine

open Sys2Proof

/-! ### Guards -/

/-- Every operation has the guards of `whenReady`. -/
theorem exec_eq_whenReady (i : Instr) : ∃ k, ∀ s, exec i s = whenReady s k := by
  cases i <;> exact ⟨_, fun _ => rfl⟩

/-- Every entry point but INIT has the guards of `whenRunning` too. -/
theorem exec_eq_whenRunning {i : Instr} (hentry : i.isEntry = true) (hinit : ∀ e, i ≠ .init e) :
    ∃ k, ∀ s, exec i s = whenRunning s k := by
  cases i with
  | init e => exact absurd rfl (hinit e)
  | rx b => exact ⟨_, fun _ => rfl⟩
  | txslot => exact ⟨_, fun _ => rfl⟩
  | busy => exact ⟨_, fun _ => rfl⟩
  | version => exact ⟨_, fun _ => rfl⟩
  | _ => cases hentry

theorem whenReady_faulted {s : State} {kind : FaultKind} (h : s.fault = some kind)
    (k : State → Host.Outcome State Fault Refusal) : whenReady s k = .fault (.stuck kind) := by
  simp [whenReady, h]

theorem whenReady_badConfiguration {s : State} (hf : s.fault = none) (hc : s.cfg.ok = false)
    (k : State → Host.Outcome State Fault Refusal) : whenReady s k = .refused .badConfiguration := by
  simp [whenReady, hf, hc]

theorem whenRunning_notInitialised {s : State} (hf : s.fault = none) (hc : s.cfg.ok = true) (hi : s.init = false)
    (k : State → Host.Outcome State Fault Refusal) : whenRunning s k = .refused .notInitialised := by
  simp [whenRunning, whenReady_of hf hc, hi]

/-- The check is the conjunction of R10's constraints. -/
theorem ok_iff (p : Params) : p.ok = true ↔ p.commands.Nodup ∧ p.codes.Nodup ∧ 1 ≤ p.maxPayload ∧ p.maxPayload ≤ 65535 ∧
    1 ≤ p.maxVars ∧ p.maxVars ≤ 255 := by
  simp only [Params.ok, Bool.and_eq_true, decide_eq_true_eq, and_assoc]

/-- Settles O2: `step` makes the check before it takes a delivery, and every operation makes it first. -/
theorem faultedBlockHasNoStep : Obligations.FaultedBlockHasNoStep := by
  intro s kind hf
  refine ⟨by simp [step, hf], fun i => ?_⟩
  obtain ⟨k, hk⟩ := exec_eq_whenReady i
  rw [hk, whenReady_faulted hf]

/-- Settles O3: the guards of a faulted block and of the configuration pass, and the next one refuses. -/
theorem entryBeforeInitRefused : Obligations.EntryBeforeInitRefused := by
  intro i s hf hc hi hentry hinit
  obtain ⟨k, hk⟩ := exec_eq_whenRunning hentry hinit
  rw [hk, whenRunning_notInitialised hf hc hi]

/-- Settles O4: the check of `Params.ok` is made before any rule runs. -/
theorem brokenConfigurationRefused : Obligations.BrokenConfigurationRefused := by
  intro i s hf hbroken
  obtain ⟨k, hk⟩ := exec_eq_whenReady i
  have hc : s.cfg.ok = false := Bool.eq_false_iff.mpr (mt (ok_iff s.cfg).mp hbroken)
  rw [hk, whenReady_badConfiguration hf hc]

/-! ### INIT, BUSY?, VERSION? and CRC16 -/

/-- Settles O1: the reset values of R36 are those of `initBlock`. -/
theorem initLeavesResetValues : Obligations.InitLeavesResetValues := by
  intro e s hf hc
  exact whenReady_of hf hc fun s => .next (initBlock e s)

/-- Settles O5: the busy flag is `tx.state = Sending` by definition (R29). -/
theorem busyAnswersSending : Obligations.BusyAnswersSending := by
  intro s
  refine ⟨fun hr => ?_, fun hf hc hi => ?_, fun kind hf => ?_⟩
  · exact whenRunning_of hr fun s => .next (s.observe (.busy s.isBusy))
  · exact entryBeforeInitRefused .busy s hf hc hi rfl nofun
  · exact (faultedBlockHasNoStep s kind hf).2 .busy

/-- Settles O6: the rule only shows the parameter. -/
theorem versionAnswersParameter : Obligations.VersionAnswersParameter := by
  intro s hr
  exact whenRunning_of hr fun s => .next (s.observe (.version s.cfg.version))

/-- Settles O7: CRC16 is the fold of R90's byte step, and asks for no more than `whenReady`. -/
theorem crc16ShowsItsResult : Obligations.Crc16ShowsItsResult := by
  intro bytes s hf hc
  exact whenReady_of hf hc fun s => .next (s.observe (.crc (crc16 bytes)))

/-! ### Deliveries (R7, R216) -/

theorem step_of_pending {s : State} {i : Instr} {later : List Instr} (hf : s.fault = none) (hp : s.pending = i :: later)
    (hwf : i.wf s.cfg = true) : step s = exec i (s.withPending later) := by
  simp [step, hf, nextDelivery, hp, hwf]

theorem step_of_none_pending {s : State} (hf : s.fault = none) (hp : s.pending = []) : step s = .next s := by
  simp [step, hf, nextDelivery, hp]

/-- Everything a step that leaves a next state can be: nothing was pending, or it ran the oldest delivery. -/
theorem step_cases {s t : State} (h : step s = .next t) :
    t = s ∨ ∃ i later, s.pending = i :: later ∧ exec i (s.withPending later) = .next t := by
  cases hf : s.fault with
  | some kind => simp [step, hf] at h
  | none =>
    cases hp : s.pending with
    | nil => rw [step_of_none_pending hf hp] at h; cases h; exact .inl rfl
    | cons i later =>
      cases hwf : i.wf s.cfg with
      | false => simp [step, hf, nextDelivery, hp, hwf] at h
      | true => exact .inr ⟨i, later, rfl, by rw [← step_of_pending hf hp hwf, h]⟩

/-- Settles O45: `step` takes the oldest delivery off the list and runs it. -/
theorem stepRunsNextDelivery : Obligations.StepRunsNextDelivery := by
  intro i later s hf
  exact ⟨fun hp hwf => step_of_pending hf hp hwf, fun hp => step_of_none_pending hf hp⟩

/-- Settles O46: the word's operation is put before what was pending, and the step takes it away again. -/
theorem fetchWordIsRunNext : Obligations.FetchWordIsRunNext := by
  intro i nbits w s hf hword hwf
  have hplaced : s.withFetchWord nbits w = s.withPending (i :: s.pending) := by
    simp only [State.withFetchWord, hword, deliverFirst]
  have hstep := step_of_pending (s := s.withPending (i :: s.pending)) hf rfl hwf
  rw [hplaced, hstep, withPending_withPending, withPending_self]

end Sys2Proof.Machine

/-! PROOFS. The receiver (R100 to R108): the Receive Context that a byte leaves, as a function of the parameters and of the
context alone, and what RX does with it. -/

namespace Sys2Proof.Machine

open Sys2Proof

/-! ### The Receive Context after a byte -/

/-- The Receive Context that the byte `b` leaves (R101 to R107). In CrcHigh it is the context that the dispatch of R108 runs in:
the byte is stored, and the return to Idle is still to come. -/
def RxCtx.next (p : Params) (r : RxCtx) (b : Byte) : RxCtx :=
  match r.state with
  | .idle => if b = p.startMarker then ⟨.lenLow, (blankBuf p.rxCap).set 0 (some b), r.len, r.idx⟩ else r
  | .lenLow => ⟨.lenHigh, r.buf.set 1 (some b), b.setWidth 16, r.idx⟩
  | .lenHigh =>
    ⟨if p.maxPayload < (r.len ||| (b.setWidth 16 <<< 8)).toNat then .idle else .command, r.buf.set 2 (some b),
      r.len ||| (b.setWidth 16 <<< 8), r.idx⟩
  | .command => ⟨.sequence, r.buf.set 3 (some b), r.len, r.idx⟩
  | .sequence => ⟨if r.len = 0 then .crcLow else .payload, r.buf.set 4 (some b), r.len, 0⟩
  | .payload => ⟨if r.idx + 1 = r.len then .crcLow else .payload, r.buf.set (5 + r.idx.toNat) (some b), r.len, r.idx + 1⟩
  | .crcLow => ⟨.crcHigh, r.buf.set (5 + r.len.toNat) (some b), r.len, r.idx⟩
  | .crcHigh => ⟨.crcHigh, r.buf.set (6 + r.len.toNat) (some b), r.len, r.idx⟩

/-- A write of the receive buffer either stores the byte or lies outside the buffer (R22). -/
theorem rxPut_cases (i : Nat) (v : Byte) (s : State) :
    rxPut i v s = .done () (s.withRx { s.rx with buf := s.rx.buf.set i (some v) }) ∨
      s.rx.buf.length ≤ i ∧ rxPut i v s = .stop .outsideBuffer := by
  rcases Nat.lt_or_ge i s.rx.buf.length with h | h
  · exact .inl (rxPut_of_lt v h)
  · exact .inr ⟨h, by simp [rxPut, Buf.put?, Nat.not_lt.mpr h]⟩

/-- Everything RX can do before a frame's last byte: the context of `RxCtx.next`, or a stop where the buffer has no cell left. -/
theorem receive_cases (b : Byte) (s : State) (h : s.rx.state ≠ .crcHigh) :
    receive b s = .done () (s.withRx (s.rx.next s.cfg b)) ∨
      s.rx.buf.length ≤ rxExtent s.rx ∧ receive b s = .stop .outsideBuffer := by
  have hput := rxPut_cases (rxExtent s.rx) b s
  cases hst : s.rx.state with
  | idle =>
    refine .inl ?_
    simp only [receive, hst, RxCtx.next]
    split_ifs with hb
    · subst hb; exact rxIdle_marker s
    · exact rxIdle_other hb
  | crcHigh => exact absurd hst h
  | _ =>
    simp only [rxExtent, hst] at hput
    rcases hput with hput | ⟨hle, hput⟩
    · refine .inl ?_
      simp only [receive, hst, RxCtx.next, rxLenLow, rxLenHigh, rxCommand, rxSequence, rxPayload, rxCrcLow, hput]
      rfl
    · refine .inr ⟨by simpa only [rxExtent, hst] using hle, ?_⟩
      simp only [receive, hst, rxLenLow, rxLenHigh, rxCommand, rxSequence, rxPayload, rxCrcLow, hput]
      rfl

/-- Everything RX can do with a frame's last byte: the dispatch of the completed frame, or a stop where the buffer has no cell
left (R108). -/
theorem receive_crcHigh_cases (b : Byte) (s : State) (h : s.rx.state = .crcHigh) :
    receive b s = ((dispatch (s.withRx (s.rx.next s.cfg b))).andThen fun _ t => rxGoto .idle t) ∨
      s.rx.buf.length ≤ rxExtent s.rx ∧ receive b s = .stop .outsideBuffer := by
  have hput := rxPut_cases (rxExtent s.rx) b s
  have hctx : s.rx.next s.cfg b = ⟨.crcHigh, s.rx.buf.set (6 + s.rx.len.toNat) (some b), s.rx.len, s.rx.idx⟩ := by
    simp only [RxCtx.next, h]
  simp only [rxExtent, h] at hput
  rcases hput with hput | ⟨hle, hput⟩
  · exact .inl (by rw [receive, h, hctx]; simp only [rxCrcHigh, hput, andThen_done])
  · exact .inr ⟨by simpa only [rxExtent, h] using hle, by rw [receive, h]; simp only [rxCrcHigh, hput, andThen_stop]⟩

/-- Under the invariant a byte before a frame's last leaves the context of `RxCtx.next`, and nothing else changes. -/
theorem exec_rx_of_incomplete {s : State} (hr : Running s) (hi : s.Inv) (h : s.rx.state ≠ .crcHigh) (b : Byte) :
    exec (.rx b) s = .next (s.withRx (s.rx.next s.cfg b)) := by
  rw [exec_rx_of_running hr]
  rcases receive_cases b s h with hc | ⟨hle, -⟩
  · rw [hc, outcome_done]
  · exact absurd (hi.rx hr.inited).extent_lt (Nat.not_lt.mpr hle)

/-- Under the invariant a frame's last byte dispatches it. -/
theorem exec_rx_of_crcHigh {s : State} (hr : Running s) (hi : s.Inv) (h : s.rx.state = .crcHigh) (b : Byte) :
    exec (.rx b) s = ((dispatch (s.withRx (s.rx.next s.cfg b))).andThen fun _ t => rxGoto .idle t).outcome := by
  rw [exec_rx_of_running hr]
  rcases receive_crcHigh_cases b s h with hc | ⟨hle, -⟩
  · rw [hc]
  · exact absurd (hi.rx hr.inited).extent_lt (Nat.not_lt.mpr hle)

/-- Settles O52: before a frame's last byte every rule of the receiver writes the Receive Context alone. -/
theorem incompleteRxFrame : Obligations.IncompleteRxFrame := by
  intro b s t h hnext
  obtain ⟨-, hnext⟩ := whenRunning_next (k := fun s => (receive b s).outcome) hnext
  rcases receive_cases b s h with hc | ⟨-, hc⟩ <;> rw [hc] at hnext <;> cases hnext
  rfl

/-- Settles O10: `RxCtx.next` in LenLow and LenHigh. -/
theorem rxLengthAndCapacity : Obligations.RxLengthAndCapacity := by
  intro b s hr hi
  refine ⟨fun hst => ?_, fun hst => ?_⟩ <;> rw [exec_rx_of_incomplete hr hi (by simp [hst]), RxCtx.next, hst] <;> rfl

/-- Settles O12: `RxCtx.next` in Sequence and CrcLow. -/
theorem rxSequenceAndCrcLow : Obligations.RxSequenceAndCrcLow := by
  intro b s hr hi
  refine ⟨fun hst => ?_, fun hst => ?_⟩ <;> rw [exec_rx_of_incomplete hr hi (by simp [hst]), RxCtx.next, hst] <;> rfl

/-! ### The invariant of the Receive Context (R22 to R24, R110) -/

/-- The first `n` cells of the buffer were written. -/
def Buf.Written (b : Buf) (n : Nat) : Prop := ∀ i, i < n → (Buf.cell? b i).isSome = true

theorem Buf.Written.set {b : Buf} {n : Nat} (h : Buf.Written b n) (hn : n < b.length) (v : Byte) :
    Buf.Written (b.set n (some v)) (n + 1) := by
  intro i hi
  rcases Nat.lt_succ_iff_lt_or_eq.mp hi with hlt | rfl
  · exact isSome_cell?_set hn (h i hlt)
  · rw [cell?_set_same v hn]; rfl

theorem Buf.Written.mono {b : Buf} {m n : Nat} (h : Buf.Written b n) (hm : m ≤ n) : Buf.Written b m :=
  fun i hi => h i (Nat.lt_of_lt_of_le hi hm)


/-- Outside Idle the byte goes to the cell after those received so far. -/
theorem RxCtx.next_buf {p : Params} {r : RxCtx} (h : r.state ≠ .idle) (b : Byte) :
    (r.next p b).buf = r.buf.set (rxExtent r) (some b) := by
  cases hst : r.state with
  | idle => exact absurd hst h
  | _ => simp only [RxCtx.next, rxExtent, hst]

/-- A byte adds one cell to those received, or starts the count again. -/
theorem rxExtent_next_le {p : Params} {r : RxCtx} (h : RxInv p r) (b : Byte) : rxExtent (r.next p b) ≤ rxExtent r + 1 := by
  cases hst : r.state with
  | idle => simp only [RxCtx.next, rxExtent, hst]; split_ifs <;> simp [hst]
  | lenHigh => simp only [RxCtx.next, rxExtent, hst]; split_ifs <;> simp
  | sequence => simp only [RxCtx.next, rxExtent, hst]; split_ifs with hempty <;> simp [hempty]
  | payload =>
    have hlt := h.idx hst
    simp only [RxCtx.next, rxExtent, hst]
    split_ifs with hend
    · have := (half_succ_eq_iff hlt).mp hend
      simp only; omega
    · simp only; bv_omega
  | _ => simp only [RxCtx.next, rxExtent, hst]; omega

/-- The context that a byte leaves meets the invariant again. -/
theorem RxInv.next {p : Params} {r : RxCtx} (h : RxInv p r) (b : Byte) : RxInv p (r.next p b) where
  cap := by
    have hcap := h.cap
    cases hst : r.state with
    | idle => simp only [RxCtx.next, hst]; split_ifs <;> simp [hcap]
    | _ => simp only [RxCtx.next, hst, List.length_set, hcap]
  len := by
    have hlen := h.len
    cases hst : r.state with
    | idle => simp only [RxCtx.next, hst]; split_ifs <;> simp [RxState.pastCheck, hst]
    | lenLow => simp [RxCtx.next, hst, RxState.pastCheck]
    | lenHigh =>
      simp only [RxCtx.next, hst]
      split_ifs with hover
      · nofun
      · exact fun _ => Nat.not_lt.mp hover
    | _ => intro _; simpa only [RxCtx.next, hst] using hlen (by simp [RxState.pastCheck, hst])
  idx := by
    have hidx := h.idx
    cases hst : r.state with
    | idle => simp only [RxCtx.next, hst]; split_ifs <;> simp [hst]
    | lenHigh => simp only [RxCtx.next, hst]; split_ifs <;> simp
    | sequence => simp only [RxCtx.next, hst]; split_ifs with hz <;> simp; bv_omega
    | payload =>
      have hlt := hidx hst
      simp only [RxCtx.next, hst]; split_ifs with hend <;> simp; bv_omega
    | _ => simp [RxCtx.next, hst]
  written := by
    by_cases hst : r.state = .idle
    · simp only [RxCtx.next, hst]
      split_ifs with hb
      · intro i hi
        obtain rfl : i = 0 := by simpa [rxExtent] using hi
        simp [Params.rxCap]
      · exact h.written
    · rw [RxCtx.next_buf hst]
      exact (Buf.Written.set h.written h.extent_lt b).mono (rxExtent_next_le h b)

end Sys2Proof.Machine

/-! PROOFS. What every operation keeps: the parameters, the capability, the init mark and the deliveries (R30 to R32), and the
invariant of the two contexts and of memory (R22 to R28, R110). -/

namespace Sys2Proof.Machine

open Sys2Proof

/-! ### TXSLOT -/

/-- Everything TXSLOT can do (R166 to R168): emit the next byte, force Idle, or stop at an unwritten cell. -/
theorem txSlot_cases (s : State) :
    (∃ b, s.tx.state = .sending ∧ s.tx.idx < s.tx.len ∧ Buf.cell? s.tx.buf s.tx.idx = some b ∧
      txSlot s = .done () ((emit b s).withTx
        ⟨if s.tx.idx + 1 = s.tx.len then .idle else .sending, s.tx.buf, s.tx.len, s.tx.idx + 1⟩)) ∨
    (¬(s.tx.state = .sending ∧ s.tx.idx < s.tx.len) ∧ txSlot s = .done () (s.withTx { s.tx with state := .idle })) ∨
    (s.tx.state = .sending ∧ s.tx.idx < s.tx.len ∧ Buf.cell? s.tx.buf s.tx.idx = none ∧ txSlot s = .stop .unwrittenCell) := by
  by_cases h : s.tx.state = .sending ∧ s.tx.idx < s.tx.len
  · cases hc : Buf.cell? s.tx.buf s.tx.idx with
    | none => exact .inr (.inr ⟨h.1, h.2, rfl, by rw [txSlot, if_pos h, hc]⟩)
    | some b => exact .inl ⟨b, h.1, h.2, rfl, by rw [txSlot, if_pos h, hc, h.1]⟩
  · exact .inr (.inl ⟨h, by rw [txSlot, if_neg h]⟩)

theorem txSlot_keeps (s : State) : (txSlot s).All (Keeps s) := by
  rcases txSlot_cases s with ⟨b, hst, hlt, -, h⟩ | ⟨-, h⟩ | ⟨-, -, -, h⟩ <;> rw [h]
  · refine ⟨rfl, rfl, rfl, rfl, rfl, id, fun w => ⟨w.cap, w.len, fun hs => ?_, fun _ => w.written hst⟩, List.prefix_append _ _⟩
    simp only [withTx_tx] at hs ⊢
    split_ifs at hs
    omega
  · exact ⟨rfl, rfl, rfl, rfl, rfl, id, fun w => ⟨w.cap, w.len, nofun, nofun⟩, List.prefix_refl _⟩
  · trivial

/-! ### Every operation -/

/-- The rule of READ_RESP: the payload is staged and its frame encoded (R142). -/
def stagedResponse (seq count : Byte) (values : List Byte) (s : State) : Res Unit :=
  (stageAll 0 (count :: values) s).andThen fun _ t => readResponse seq (1 + values.length) t

theorem stagedResponse_keeps (seq count : Byte) (values : List Byte) (s : State) :
    (stagedResponse seq count values s).All (Keeps s) :=
  all_keeps_bind (stageAll_keeps _ _ s) fun _ t => encodeFrame_keeps _ _ _ t

theorem readFull_keeps (seq : Byte) (a : Addr) (size : Half) (n : Nat) (s : State) :
    (readFull seq a size n s).All (Keeps s) := by
  unfold readFull
  split
  · exact abort_keeps seq s
  · exact all_keeps_bind (readBytes_keeps _ _ _ s) fun _ t => Keeps.refl t

theorem readBit_keeps (seq : Byte) (a : Addr) (off w : Byte) (n : Nat) (s : State) :
    (readBit seq a off w n s).All (Keeps s) := by
  unfold readBit
  split
  · exact abort_keeps seq s
  · exact all_keeps_bind (memRead_keeps _ s) fun v t => all_keeps_bind (stage_keeps _ _ t) fun _ u => Keeps.refl u

theorem writeFull_keeps (seq : Byte) (a : Addr) (size : Half) (rest : List Byte) (s : State) :
    (writeFull seq a size rest s).All (Keeps s) := by
  unfold writeFull
  split
  · exact abort_keeps seq s
  · exact all_keeps_bind (writeBytes_keeps _ _ s) fun _ t => Keeps.refl t

theorem writeBit_keeps (seq : Byte) (a : Addr) (off w : Byte) (rest : List Byte) (s : State) :
    (writeBit seq a off w rest s).All (Keeps s) := by
  unfold writeBit
  split
  · exact abort_keeps seq s
  · exact all_keeps_bind (memRead_keeps _ s) fun _ t => all_keeps_bind (memWrite_keeps _ _ t) fun _ u => Keeps.refl u

/-- What an operation's rule can leave is what the operation can leave. -/
theorem all_of_whenRunning {α : Type} {P : State → Prop} {s t : State} (r : State → Res α) (hr : (r s).All P)
    (h : whenRunning s (fun s => (r s).outcome) = .next t) : P t :=
  hr.outcome (whenRunning_next h).2

/-- The same of an operation that stages a response: it raises TX_OVERRUN, or its rule runs. -/
theorem all_of_requireIdle {α : Type} {P : State → Prop} {s t : State} (k : State → Res α) (hk : (k s).All P)
    (hbusy : P (s.raised .txOverrun)) (h : whenRunning s (fun s => (requireIdle s k).outcome) = .next t) : P t := by
  refine all_of_whenRunning (fun s => requireIdle s k) ?_ h
  cases hst : s.tx.state with
  | idle => rwa [requireIdle_idle hst]
  | sending => rwa [requireIdle_sending hst]

theorem keeps_of_requireIdle {α : Type} {s t : State} (k : State → Res α) (hk : (k s).All (Keeps s))
    (h : whenRunning s (fun s => (requireIdle s k).outcome) = .next t) : Keeps s t :=
  all_of_requireIdle k hk (raised_keeps s _) h

theorem exec_init_next {e : Emitter} {s t : State} (h : exec (.init e) s = .next t) : t = initBlock e s := by
  obtain ⟨-, -, h⟩ := whenReady_next (k := fun s => .next (initBlock e s)) h
  exact (Host.Outcome.next.inj h).symm

theorem exec_crc16_next {bytes : List Byte} {s t : State} (h : exec (.crc16 bytes) s = .next t) :
    t = s.observe (.crc (crc16 bytes)) := by
  obtain ⟨-, -, h⟩ := whenReady_next (k := fun s => .next (s.observe (.crc (crc16 bytes)))) h
  exact (Host.Outcome.next.inj h).symm

/-- Every operation but INIT and RX is within `Keeps`. -/
theorem exec_keeps {i : Instr} {s t : State} (hinit : ∀ e, i ≠ .init e) (hrx : ∀ b, i ≠ .rx b) (h : exec i s = .next t) :
    Keeps s t := by
  cases i with
  | init e => exact absurd rfl (hinit e)
  | rx b => exact absurd rfl (hrx b)
  | txslot => exact all_of_whenRunning txSlot (txSlot_keeps s) h
  | busy => exact all_of_whenRunning (fun s => .done () (s.observe (.busy s.isBusy))) (observe_keeps s _) h
  | version => exact all_of_whenRunning (fun s => .done () (s.observe (.version s.cfg.version))) (observe_keeps s _) h
  | crc16 bytes => rw [exec_crc16_next h]; exact observe_keeps s _
  | dispatch => exact all_of_whenRunning dispatch (dispatch_keeps s) h
  | read seq payload => exact keeps_of_requireIdle (readHandler seq payload) (readHandler_keeps _ _ s) h
  | readFull seq n a size w => exact keeps_of_requireIdle (readFull seq a size n) (readFull_keeps _ _ _ _ s) h
  | readBit seq n a size off w => exact keeps_of_requireIdle (readBit seq a off w n) (readBit_keeps _ _ _ _ _ s) h
  | write seq payload => exact keeps_of_requireIdle (writeHandler seq payload) (writeHandler_keeps _ _ s) h
  | writeFull seq a size w rest => exact keeps_of_requireIdle (writeFull seq a size rest) (writeFull_keeps _ _ _ _ s) h
  | writeBit seq a size off w rest => exact keeps_of_requireIdle (writeBit seq a off w rest) (writeBit_keeps _ _ _ _ _ s) h
  | ping seq payload => exact keeps_of_requireIdle (pongResponse seq) (encodeFrame_keeps _ _ _ s) h
  | unknown cmd seq payload => exact keeps_of_requireIdle (errorResponse .unknownCmd seq) (errorResponse_keeps _ _ s) h
  | encode c seq n => exact keeps_of_requireIdle (encodeFrame c seq n) (encodeFrame_keeps _ _ _ s) h
  | readResp seq count values =>
    exact keeps_of_requireIdle (stagedResponse seq count values) (stagedResponse_keeps _ _ _ s) h
  | writeResp seq => exact keeps_of_requireIdle (writeResponse seq) (writeResponse_keeps _ s) h
  | pong seq => exact keeps_of_requireIdle (pongResponse seq) (encodeFrame_keeps _ _ _ s) h
  | error code seq => exact keeps_of_requireIdle (errorResponse code seq) (errorResponse_keeps _ _ s) h

/-- What RX can leave: the context of `RxCtx.next`, back in Idle or not, and beside it only what `Keeps` allows. -/
def RxLeaves (b : Byte) (s t : State) : Prop :=
  Keeps (s.withRx t.rx) t ∧ (t.rx = s.rx.next s.cfg b ∨ t.rx = { s.rx.next s.cfg b with state := .idle })

theorem receive_leaves (b : Byte) (s : State) : (receive b s).All (RxLeaves b s) := by
  by_cases h : s.rx.state = .crcHigh
  · rcases receive_crcHigh_cases b s h with hc | ⟨-, hc⟩ <;> rw [hc]
    · have hd := dispatch_keeps (s.withRx (s.rx.next s.cfg b))
      cases hr : dispatch (s.withRx (s.rx.next s.cfg b)) with
      | stop f => trivial
      | halt t =>
        rw [hr, all_halt] at hd
        exact ⟨by rw [hd.rx]; exact hd, .inl hd.rx⟩
      | done a t =>
        rw [hr, all_done] at hd
        refine ⟨⟨hd.cfg, rfl, hd.emitter, hd.init, hd.pending, hd.mem, hd.tx, hd.trace⟩, .inr ?_⟩
        rw [withRx_rx, hd.rx, withRx_rx]
    · trivial
  · rcases receive_cases b s h with hc | ⟨-, hc⟩ <;> rw [hc]
    · exact ⟨Keeps.refl _, .inl rfl⟩
    · trivial

theorem exec_rx_leaves {b : Byte} {s t : State} (h : exec (.rx b) s = .next t) : RxLeaves b s t :=
  all_of_whenRunning (receive b) (receive_leaves b s) h

/-- Every operation but INIT keeps all that `Keeps` names, the Receive Context apart. -/
theorem exec_keeps_but_rx {i : Instr} {s t : State} (hinit : ∀ e, i ≠ .init e) (h : exec i s = .next t) :
    Keeps (s.withRx t.rx) t := by
  by_cases hrx : ∃ b, i = .rx b
  · obtain ⟨b, rfl⟩ := hrx
    exact (exec_rx_leaves h).1
  · have hk := exec_keeps hinit (fun b hb => hrx ⟨b, hb⟩) h
    rwa [hk.rx, withRx_self]

/-- Settles O50: only INIT is outside `Keeps` in more than the Receive Context. -/
theorem configurationIsConstant : Obligations.ConfigurationIsConstant := by
  intro i s t h
  by_cases hinit : ∃ e, i = .init e
  · obtain ⟨e, rfl⟩ := hinit
    rw [exec_init_next h]
    exact ⟨rfl, rfl, ⟨[], by simp⟩, fun hne => absurd rfl (hne e)⟩
  · have hk := exec_keeps_but_rx (fun e he => hinit ⟨e, he⟩) h
    obtain ⟨new, hnew⟩ := hk.trace
    exact ⟨hk.cfg, hk.pending, ⟨new, hnew.symm⟩, fun _ => ⟨hk.emitter, hk.init⟩⟩

/-! ### The invariant -/

theorem RxInv.reset (p : Params) : RxInv p (RxCtx.reset p) where
  cap := blankBuf_length _
  len := nofun
  idx := nofun
  written := nofun

theorem TxInv.reset (p : Params) : TxInv p (TxCtx.reset p) where
  cap := blankBuf_length _
  len := Nat.zero_le _
  idx := nofun
  written := nofun

/-- In Idle nothing of a frame has been received yet. -/
theorem RxInv.toIdle {p : Params} {r : RxCtx} (h : RxInv p r) : RxInv p { r with state := .idle } where
  cap := h.cap
  len := nofun
  idx := nofun
  written := nofun

/-- Memory and the Transmit Context meet the invariant again after whatever `Keeps` allows; the Receive Context is the question. -/
theorem Keeps.inv {s t : State} {r : RxCtx} (h : Keeps (s.withRx r) t) (hi : s.Inv) (hrx : t.init = true → RxInv s.cfg t.rx) :
    t.Inv where
  mem := h.mem hi.mem
  rx := fun hinit => by rw [h.cfg]; exact hrx hinit
  tx := fun hinit => by rw [h.cfg]; exact h.tx (hi.tx (h.init ▸ hinit))

theorem exec_inv {i : Instr} {s t : State} (hi : s.Inv) (h : exec i s = .next t) : t.Inv := by
  cases i with
  | init e => rw [exec_init_next h]; exact ⟨hi.mem, fun _ => RxInv.reset s.cfg, fun _ => TxInv.reset s.cfg⟩
  | rx b =>
    obtain ⟨hk, hrx⟩ := exec_rx_leaves h
    refine hk.inv hi fun hinit => ?_
    have hnext := (hi.rx (hk.init ▸ hinit)).next b
    rcases hrx with hrx | hrx <;> rw [hrx]
    · exact hnext
    · exact hnext.toIdle
  | _ =>
    have hk := exec_keeps (fun _ => Instr.noConfusion) (fun _ => Instr.noConfusion) h
    exact hk.inv (r := s.rx) hi fun hinit => by rw [hk.rx]; exact hi.rx (hk.init ▸ hinit)

/-- Settles O48: a step runs an operation, which keeps the invariant, or changes nothing. -/
theorem stepKeepsInvariant : Obligations.StepKeepsInvariant := by
  intro s t hi h
  rcases step_cases h with rfl | ⟨i, later, -, hexec⟩
  · exact hi
  · exact exec_inv (s := s.withPending later) ⟨hi.mem, hi.rx, hi.tx⟩ hexec

/-- Settles O47: in Idle with nothing received and nothing staged the contexts demand no written cell. -/
theorem resetMeetsInvariant : Obligations.ResetMeetsInvariant := by
  intro p e
  exact ⟨reset_mem_wf p e, fun _ => RxInv.reset p, fun _ => TxInv.reset p⟩

end Sys2Proof.Machine

/-! PROOFS. The encodings (R60 to R75): what is read from the bytes of a descriptor, of a frame and of a delivery. -/

namespace Sys2Proof.Machine

open Sys2Proof

/-! ### Words and descriptors -/

theorem le16_lo8_hi8 {v : Nat} (h : v < 2 ^ 16) : (le16 (lo8 v) (hi8 v)).toNat = v := by
  rw [le16_toNat, lo8_add_hi8 h]

theorem le16_lo8_hi8_toNat (v : Half) : le16 (lo8 v.toNat) (hi8 v.toNat) = v :=
  BitVec.eq_of_toNat_eq (le16_lo8_hi8 v.isLt)

theorem le32_bytes (a : Addr) : le32 (a.setWidth 8) ((a >>> 8).setWidth 8) ((a >>> 16).setWidth 8) ((a >>> 24).setWidth 8) = a := by
  apply BitVec.eq_of_toNat_eq
  simp only [le32_toNat, BitVec.toNat_setWidth, BitVec.toNat_ushiftRight, Nat.shiftRight_eq_div_pow]
  omega

/-- Reading a descriptor's bytes gives the descriptor back, and the bytes after it (R65, R135). -/
theorem parseDesc_descBytes (d : Desc) (rest : List Byte) : parseDesc (descBytes d ++ rest) = some (d, rest) := by
  have hparse : parseDesc (descBytes d ++ rest) =
      some (⟨le32 (d.addr.setWidth 8) ((d.addr >>> 8).setWidth 8) ((d.addr >>> 16).setWidth 8) ((d.addr >>> 24).setWidth 8),
        le16 (lo8 d.size.toNat) (hi8 d.size.toNat), d.bitOffset, d.bitSize⟩, rest) := rfl
  rw [hparse, le32_bytes, le16_lo8_hi8_toNat]

theorem descBytes_length (d : Desc) : (descBytes d).length = 8 := rfl

/-! ### Frames (R60 to R64) -/

/-- Reading a frame within the capacity gives its fields back. -/
theorem decodeFrame_frameBytes {p : Params} (hp : p.ok = true) (cmd seq : Byte) {payload : List Byte}
    (h : payload.length ≤ p.maxPayload) : decodeFrame p (frameBytes p cmd seq payload) = .ok ⟨cmd, seq, payload⟩ := by
  have hlen : (le16 (lo8 payload.length) (hi8 payload.length)).toNat = payload.length :=
    le16_lo8_hi8 (by have := (ok_bounds hp).2.1; omega)
  have hcrc := le16_lo8_hi8_toNat (crc16 (frameBody p cmd seq payload))
  simp only [frameBody, List.cons_append, List.nil_append] at hcrc
  simp [frameBytes, frameBody, decodeFrame, bytes16, hlen, Nat.not_lt.mpr h, hcrc]

/-- Frames of the same length are equal only if their fields are. -/
theorem frameBytes_inj {p : Params} {cmd cmd' seq seq' : Byte} {payload payload' : List Byte}
    (h : frameBytes p cmd seq payload = frameBytes p cmd' seq' payload') :
    cmd = cmd' ∧ seq = seq' ∧ payload = payload' := by
  have hlen : payload.length = payload'.length := by simpa using congrArg List.length h
  simp only [frameBytes, frameBody, List.cons_append, List.nil_append, List.cons.injEq] at h
  obtain ⟨-, -, -, hcmd, hseq, hrest⟩ := h
  exact ⟨hcmd, hseq, (List.append_inj hrest hlen).1⟩

/-- A byte string that reads as a frame is within the capacity and is the frame of its fields. -/
theorem decodeFrame_ok {p : Params} {bs : List Byte} {f : RawFrame} (h : decodeFrame p bs = .ok f) :
    bs = frameBytes p f.cmd f.seq f.payload ∧ f.payload.length ≤ p.maxPayload := by
  unfold decodeFrame at h
  split at h
  case h_2 => cases h
  case h_1 m l0 l1 cmd seq rest =>
    split_ifs at h with hm hcap hlen
    rw [ne_eq, not_not] at hm hlen
    have htake : (rest.take (le16 l0 l1).toNat).length = (le16 l0 l1).toNat := by
      rw [List.length_take, hlen]; omega
    split at h
    case h_2 => cases h
    case h_1 lo hi hdrop =>
      split_ifs at h with hcrc
      cases h
      have hbody : frameBody p cmd seq (rest.take (le16 l0 l1).toNat) =
          m :: l0 :: l1 :: cmd :: seq :: rest.take (le16 l0 l1).toNat := by
        have hl := bytes16_le16 l0 l1
        simp only [bytes16, List.cons.injEq, and_true] at hl
        simp only [frameBody, htake, hl.1, hl.2, hm, List.cons_append, List.nil_append]
      refine ⟨?_, htake.trans_le (Nat.not_lt.mp hcap)⟩
      rw [frameBytes, hbody, ← hcrc, bytes16_le16, ← hdrop]
      simp only [List.cons_append, List.take_append_drop]

/-- Settles O55: the reading is an inverse of the encoding on its domain, and the encoding is injective. -/
theorem frameHasOneReading : Obligations.FrameHasOneReading := by
  intro p bs f h
  obtain ⟨hbs, hlen⟩ := decodeFrame_ok h
  refine ⟨hbs, hlen, fun cmd seq payload heq => ?_⟩
  obtain ⟨hcmd, hseq, hpayload⟩ := frameBytes_inj (hbs.symm.trans heq)
  rw [← hcmd, ← hseq, ← hpayload]

/-! ### Command and error codes (R71 to R74) -/

section Codes

variable {p : Params} (hp : p.ok = true)
include hp

/-- The request codes differ (R10). -/
theorem requestCodes_ne : p.cmdWrite ≠ p.cmdRead ∧ p.cmdPing ≠ p.cmdRead ∧ p.cmdPing ≠ p.cmdWrite := by
  have h := ok_commands hp
  simp only [Params.commands, List.nodup_cons, List.mem_cons, not_or] at h
  exact ⟨Ne.symm h.1.1, Ne.symm h.1.2.1, Ne.symm h.2.1.1⟩

/-- The response codes differ (R10). -/
theorem responseCodes_ne : p.cmdWriteResp ≠ p.cmdReadResp ∧ p.cmdPong ≠ p.cmdReadResp ∧ p.cmdPong ≠ p.cmdWriteResp ∧
    p.cmdError ≠ p.cmdReadResp ∧ p.cmdError ≠ p.cmdWriteResp ∧ p.cmdError ≠ p.cmdPong := by
  have h := ok_commands hp
  simp only [Params.commands, List.nodup_cons, List.mem_cons, not_or] at h
  obtain ⟨-, -, -, ⟨hrw, hre, hrp, -⟩, ⟨hwe, hwp, -⟩, ⟨hep, -⟩, -⟩ := h
  exact ⟨Ne.symm hrw, Ne.symm hrp, Ne.symm hwp, Ne.symm hre, Ne.symm hwe, hep⟩

/-- The codes of the error frames differ (R10). -/
theorem errorCodes_ne : p.errInvalidSize ≠ p.errCrc ∧ p.errUnknownCmd ≠ p.errCrc ∧ p.errUnknownCmd ≠ p.errInvalidSize := by
  have h := ok_codes hp
  simp only [Params.codes, List.nodup_cons, List.mem_cons, not_or] at h
  obtain ⟨-, ⟨-, hcs, hcu, -⟩, -, ⟨hsu, -⟩, -⟩ := h
  exact ⟨Ne.symm hcs, Ne.symm hcu, Ne.symm hsu⟩

theorem decodeCommand_cmdWrite : decodeCommand p p.cmdWrite = .write := by
  rw [decodeCommand, if_neg (requestCodes_ne hp).1, if_pos rfl]

theorem decodeCommand_cmdPing : decodeCommand p p.cmdPing = .ping := by
  obtain ⟨-, hread, hwrite⟩ := requestCodes_ne hp
  rw [decodeCommand, if_neg hread, if_neg hwrite, if_pos rfl]

theorem decodeResp_respByte (c : RespCode) : decodeResp p (p.respByte c) = .ok c := by
  obtain ⟨hwr, hpr, hpw, her, hew, hep⟩ := responseCodes_ne hp
  cases c <;> simp [decodeResp, Params.respByte, hwr, hpr, hpw, her, hew, hep]

theorem responseInstr_writeResp (seq : Byte) :
    responseInstr p ⟨p.cmdWriteResp, seq, [p.errOk]⟩ = .ok (.writeResp seq) := by
  simp [responseInstr, (responseCodes_ne hp).1]

theorem responseInstr_pong (seq : Byte) : responseInstr p ⟨p.cmdPong, seq, []⟩ = .ok (.pong seq) := by
  obtain ⟨-, hpr, hpw, -⟩ := responseCodes_ne hp
  simp [responseInstr, hpr, hpw]

theorem responseInstr_error (code : ErrCode) (seq : Byte) :
    responseInstr p ⟨p.cmdError, seq, [p.errByte code]⟩ = .ok (.error code seq) := by
  obtain ⟨-, -, -, her, hew, hep⟩ := responseCodes_ne hp
  obtain ⟨hsc, huc, hus⟩ := errorCodes_ne hp
  cases code <;> simp [responseInstr, Params.errByte, her, hew, hep, hsc, huc, hus]

/-! ### Deliveries -/

/-- The delivery of a request frame is read as the request that its command byte selects (R74). -/
theorem decode_request (cmd seq : Byte) {payload : List Byte} (h : payload.length ≤ p.maxPayload) :
    decode p (8 :: frameBytes p cmd seq payload) = .ok (requestInstr p cmd seq payload) := by
  have hframe := decodeFrame_frameBytes hp cmd seq h
  change decodeRequest p (frameBytes p cmd seq payload) = _
  rw [decodeRequest, hframe]

/-- The delivery of a response frame is read as the response it carries (R71). -/
theorem decode_response (cmd seq : Byte) {payload : List Byte} (h : payload.length ≤ p.maxPayload) :
    decode p (9 :: frameBytes p cmd seq payload) = responseInstr p ⟨cmd, seq, payload⟩ := by
  have hframe := decodeFrame_frameBytes hp cmd seq h
  change decodeResponse p (frameBytes p cmd seq payload) = _
  rw [decodeResponse, hframe]

omit hp in
theorem decode_readDesc {n : Nat} (hn : n < 2 ^ 16) (seq : Byte) (d : Desc) :
    decode p ([10, seq] ++ bytes16 n ++ descBytes d) = .ok (if descIsFull d then .readFull seq n d.addr d.size d.bitSize
      else .readBit seq n d.addr d.size d.bitOffset d.bitSize) := by
  have hparse := parseDesc_descBytes d []
  rw [List.append_nil] at hparse
  change decodeReadDesc (seq :: lo8 n :: hi8 n :: descBytes d) = _
  rw [decodeReadDesc, hparse]
  simp only [le16_lo8_hi8 hn]
  split_ifs <;> rfl

omit hp in
theorem decode_writeElem (seq : Byte) (d : Desc) (rest : List Byte) :
    decode p ([11, seq] ++ descBytes d ++ rest) = .ok (if descIsFull d then .writeFull seq d.addr d.size d.bitSize rest
      else .writeBit seq d.addr d.size d.bitOffset d.bitSize rest) := by
  change decodeWriteElem (seq :: (descBytes d ++ rest)) = _
  rw [decodeWriteElem, parseDesc_descBytes]
  simp only
  split_ifs <;> rfl

end Codes

theorem descIsFull_sentinel (a : Addr) (size : Half) (w : Byte) : descIsFull ⟨a, size, 0xFF, w⟩ = true := rfl

theorem descIsFull_of_ne {off : Byte} (h : off ≠ 0xFF) (a : Addr) (size : Half) (w : Byte) :
    descIsFull ⟨a, size, off, w⟩ = false :=
  beq_false_of_ne h

/-- Settles O54: each kind of delivery is read by the inverse of its encoding, and R10 keeps the codes apart. -/
theorem decodeInvertsEncode : Obligations.DecodeInvertsEncode := by
  intro p i hp hwf
  have hmax : p.maxPayload < 2 ^ 16 := by have := (ok_bounds hp).2.1; omega
  cases i <;>
    simp only [Instr.wf, Params.payloadFits, Bool.and_eq_true, decide_eq_true_eq] at hwf <;> rw [encode]
  case init e => exact congrArg (fun a => Except.ok (Instr.init a)) (le32_bytes e)
  case encode c seq n =>
    change decodeEncode p [p.respByte c, seq, lo8 n, hi8 n] = _
    simp only [decodeEncode, decodeResp_respByte hp, le16_lo8_hi8 (Nat.lt_of_le_of_lt hwf hmax)]
  case read seq payload => rw [decode_request hp _ _ hwf, requestInstr, decodeCommand, if_pos rfl]
  case write seq payload => rw [decode_request hp _ _ hwf, requestInstr, decodeCommand_cmdWrite hp]
  case ping seq payload => rw [decode_request hp _ _ hwf, requestInstr, decodeCommand_cmdPing hp]
  case unknown cmd seq payload =>
    obtain ⟨⟨⟨hfits, hread⟩, hwrite⟩, hping⟩ := hwf
    rw [decode_request hp _ _ hfits, requestInstr, decodeCommand, if_neg hread, if_neg hwrite, if_neg hping]
  case readResp seq count values =>
    rw [decode_response hp _ _ (by rw [List.length_cons]; omega), responseInstr, if_pos rfl]
  case writeResp seq => rw [decode_response hp (payload := [_]) _ _ (ok_bounds hp).1, responseInstr_writeResp hp]
  case pong seq => rw [decode_response hp _ _ (Nat.zero_le _), responseInstr_pong hp]
  case error code seq => rw [decode_response hp (payload := [_]) _ _ (ok_bounds hp).1, responseInstr_error hp]
  case readFull seq n a size w => rw [decode_readDesc (Nat.lt_of_le_of_lt hwf.2 hmax), descIsFull_sentinel, if_pos rfl]
  case readBit seq n a size off w =>
    obtain ⟨⟨-, hn⟩, hoff⟩ := hwf
    rw [decode_readDesc (Nat.lt_of_le_of_lt hn hmax), descIsFull_of_ne hoff, if_neg Bool.false_ne_true]
  case writeFull seq a size w rest => rw [decode_writeElem, descIsFull_sentinel, if_pos rfl]
  case writeBit seq a size off w rest =>
    rw [decode_writeElem, descIsFull_of_ne hwf.2, if_neg Bool.false_ne_true]
  all_goals rfl

/-- Settles O60: closed words, evaluated. -/
theorem sampleWordsDecode : Obligations.SampleWordsDecode := by
  unfold Obligations.SampleWordsDecode
  decide +kernel

end Sys2Proof.Machine

/-! PROOFS. The CRC (R90 to R94): a step is injective in the value and in the byte, and the residue is zero. -/

namespace Sys2Proof.Machine

open Sys2Proof

/-! ### One changed byte -/

/-- The polynomial's bit 0 keeps the bit that falls out (R90). -/
theorem crcShift_bit_zero (c : Half) : (crcShift c).getLsbD 0 = c.getLsbD 15 := by
  unfold crcShift
  split_ifs with htop <;> simpa using htop

theorem crcShift_injective : Function.Injective crcShift := by
  intro c c' h
  have htop : c.getLsbD 15 = c'.getLsbD 15 := by rw [← crcShift_bit_zero, h, crcShift_bit_zero]
  have hshift : c <<< 1 = c' <<< 1 := by
    unfold crcShift at h
    rw [htop] at h
    split_ifs at h
    · exact (BitVec.xor_left_inj _).mp h
    · exact h
  apply BitVec.eq_of_getLsbD_eq
  intro i hi
  rcases Nat.lt_succ_iff_lt_or_eq.mp hi with hlt | rfl
  · have := congrArg (fun x : Half => x.getLsbD (i + 1)) hshift
    simpa [hi, hlt, show i + 1 < 16 by omega] using this
  · exact htop

theorem crcShift_repeat_injective (n : Nat) : Function.Injective (Nat.repeat crcShift n) := by
  induction n with
  | zero => exact fun _ _ h => h
  | succ n ih => exact crcShift_injective.comp ih

/-- For each byte, the step is injective in the value before it. -/
theorem crcByte_injective (b : Byte) : Function.Injective fun c => crcByte c b :=
  fun _ _ h => (BitVec.xor_left_inj _).mp (crcShift_repeat_injective 8 h)

/-- For each value, the step is injective in the byte. -/
theorem crcByte_byte_injective (c : Half) : Function.Injective (crcByte c) := by
  intro b b' h
  have hx : b.setWidth 16 <<< 8 = b'.setWidth 16 <<< 8 := (BitVec.xor_right_inj c).mp (crcShift_repeat_injective 8 h)
  apply BitVec.eq_of_getLsbD_eq
  intro i hi
  have := congrArg (fun x : Half => x.getLsbD (i + 8)) hx
  simpa [hi, show i + 8 < 16 by omega] using this

theorem foldl_crcByte_injective (bs : List Byte) : Function.Injective fun c => bs.foldl crcByte c := by
  induction bs with
  | nil => exact fun _ _ h => h
  | cons b bs ih => exact ih.comp (crcByte_injective b)

/-- Settles O59: the changed byte makes the values differ, and no byte after it makes them equal again. -/
theorem crcSeesOneChangedByte : Obligations.CrcSeesOneChangedByte := by
  intro pre post b b' hne heq
  simp only [crc16, List.foldl_append, List.foldl_cons] at heq
  exact hne (crcByte_byte_injective _ (foldl_crcByte_injective post heq))

/-! ### The residue (R94) -/

/-- While no bit reaches bit 15, shifts of the CRC are plain shifts. -/
theorem crcShift_repeat_of_lt {n : Nat} {c : Half} (h : c.toNat * 2 ^ n < 2 ^ 16) :
    (Nat.repeat crcShift n c).toNat = c.toNat * 2 ^ n := by
  induction n with
  | zero => simp [Nat.repeat]
  | succ n ih =>
    rw [Nat.pow_succ, ← Nat.mul_assoc] at h ⊢
    have hn := ih (by omega)
    have htop : (Nat.repeat crcShift n c).getLsbD 15 = false := by
      rw [← BitVec.testBit_toNat, hn]
      exact Nat.testBit_lt_two_pow (by omega)
    rw [Nat.repeat, crcShift, htop, if_neg Bool.false_ne_true, BitVec.toNat_shiftLeft, hn, Nat.shiftLeft_eq]
    omega

/-- A value's high byte cancels its own high bits. -/
theorem xor_hi8 (c : Half) : c ^^^ ((hi8 c.toNat).setWidth 16 <<< 8) = (lo8 c.toNat).setWidth 16 := by
  apply BitVec.eq_of_getLsbD_eq
  intro i hi
  simp only [hi8, lo8, BitVec.getLsbD_xor, BitVec.getLsbD_shiftLeft, BitVec.getLsbD_setWidth, BitVec.getLsbD_ofNat,
    Nat.testBit_shiftRight, BitVec.testBit_toNat, hi, decide_true, Bool.true_and]
  by_cases hlow : i < 8
  · simp [hlow]
  · simp [hlow, show i - 8 < 16 by omega, show i - 8 < 8 by omega, show 8 + (i - 8) = i by omega]

/-- A step with the value's own high byte leaves its low byte in the high place. -/
theorem crcByte_hi8 (c : Half) : (crcByte c (hi8 c.toNat)).toNat = (lo8 c.toNat).toNat * 2 ^ 8 := by
  have hwidth : ((lo8 c.toNat).setWidth 16 : Half).toNat = (lo8 c.toNat).toNat := BitVec.toNat_setWidth_of_le (by decide)
  have hlt := (lo8 c.toNat).isLt
  rw [crcByte, xor_hi8, crcShift_repeat_of_lt] <;> rw [hwidth]
  omega

/-- A step with the byte that stands in the high place, over an empty low place, clears the value. -/
theorem crcByte_eq_zero {c : Half} {b : Byte} (h : c.toNat = b.toNat * 2 ^ 8) : crcByte c b = 0 := by
  have hc : c = b.setWidth 16 <<< 8 := by
    apply BitVec.eq_of_toNat_eq
    rw [h, BitVec.toNat_shiftLeft, BitVec.toNat_setWidth_of_le (by decide), Nat.shiftLeft_eq]
    have := b.isLt
    omega
  rw [crcByte, hc, BitVec.xor_self]
  exact BitVec.eq_of_toNat_eq (crcShift_repeat_of_lt (n := 8) (c := 0) (by decide))

/-- Settles O58: the first appended byte cancels the value's high bits, and the second the rest. -/
theorem crcResidueIsZero : Obligations.CrcResidueIsZero := by
  intro bytes
  have happend := List.foldl_append (f := crcByte) (b := 0xFFFF) (l := bytes)
    (l' := [hi8 (crc16 bytes).toNat, lo8 (crc16 bytes).toNat])
  exact happend.trans (crcByte_eq_zero (crcByte_hi8 (crc16 bytes)))

end Sys2Proof.Machine

/-! PROOFS. Bitfields (R136) and stores to target memory (R42 to R48). -/

namespace Sys2Proof.Machine

open Sys2Proof

/-! ### Bitfields, bit by bit (R136, D18) -/

theorem testBit_ones (w i : Nat) : ((1 <<< w) - 1).testBit i = decide (i < w) := by
  rw [Nat.one_shiftLeft, Nat.testBit_two_pow_sub_one]

theorem testBit_fieldMask (off w : Byte) {i : Nat} (hi : i < 8) :
    (fieldMask off w).testBit i = (decide (off.toNat ≤ i) && decide (i - off.toNat < w.toNat)) := by
  rw [fieldMask, show 256 = 2 ^ 8 from rfl, Nat.testBit_mod_two_pow, Nat.testBit_shiftLeft, testBit_ones, decide_eq_true hi,
    Bool.true_and]

/-- The complement of a mask within the byte. -/
theorem testBit_fieldMask_compl (off w : Byte) {i : Nat} (hi : i < 8) :
    (255 - fieldMask off w).testBit i = !(fieldMask off w).testBit i := by
  have hlt : fieldMask off w < 2 ^ 8 := Nat.mod_lt _ (by decide)
  rw [show 255 - fieldMask off w = 2 ^ 8 - (fieldMask off w + 1) by omega, Nat.testBit_two_pow_sub_succ hlt,
    decide_eq_true hi, Bool.true_and]

theorem extractField_bit (old off w : Byte) {i : Nat} (hi : i < 8) :
    (extractField old off w).getLsbD i = (decide (i < w.toNat) && old.getLsbD (off.toNat + i)) := by
  rw [extractField, BitVec.getLsbD_ofNat, Nat.testBit_and, Nat.testBit_shiftRight, testBit_ones, BitVec.testBit_toNat,
    decide_eq_true hi, Bool.true_and, Bool.and_comm]

theorem insertField_bit (old v off w : Byte) {i : Nat} (hi : i < 8) :
    (insertField old v off w).getLsbD i =
      if off.toNat ≤ i ∧ i < off.toNat + w.toNat then v.getLsbD (i - off.toNat) else old.getLsbD i := by
  rw [insertField, BitVec.getLsbD_ofNat, Nat.testBit_or, Nat.testBit_and, Nat.testBit_and, testBit_fieldMask_compl off w hi,
    testBit_fieldMask off w hi, show 256 = 2 ^ 8 from rfl, Nat.testBit_mod_two_pow, Nat.testBit_shiftLeft,
    BitVec.testBit_toNat, BitVec.testBit_toNat, decide_eq_true hi]
  by_cases hoff : off.toNat ≤ i
  · by_cases hw : i - off.toNat < w.toNat
    · simp [hoff, hw, show i < off.toNat + w.toNat by omega]
    · simp [hoff, hw, show ¬i < off.toNat + w.toNat by omega]
  · simp [hoff]

/-- Settles O36: the masks of R136, bit by bit. -/
theorem bitfieldBits : Obligations.BitfieldBits := by
  intro old v off w i hi
  exact ⟨extractField_bit old off w hi, insertField_bit old v off w hi⟩

/-! ### Spans of addresses (R42, R46) -/

@[simp] theorem spanAddrs_length (a : Addr) (k : Nat) : (spanAddrs a k).length = k := by
  induction k generalizing a with
  | zero => rfl
  | succ k ih => rw [spanAddrs, List.length_cons, ih]

theorem addr_succ_add (a : Addr) (j : Nat) : a + 1 + BitVec.ofNat 32 j = a + BitVec.ofNat 32 (j + 1) := by
  rw [BitVec.add_assoc, Nat.add_comm j 1, ← BitVec.ofNat_add_ofNat]
  rfl

theorem mem_spanAddrs {a b : Addr} {k : Nat} : b ∈ spanAddrs a k ↔ ∃ j, j < k ∧ b = a + BitVec.ofNat 32 j := by
  induction k generalizing a with
  | zero => simp [spanAddrs]
  | succ k ih =>
    rw [spanAddrs, List.mem_cons, ih]
    constructor
    · rintro (rfl | ⟨j, hj, rfl⟩)
      · exact ⟨0, by omega, (BitVec.add_zero _).symm⟩
      · exact ⟨j + 1, by omega, addr_succ_add a j⟩
    · rintro ⟨j, hj, rfl⟩
      cases j with
      | zero => exact .inl (BitVec.add_zero _)
      | succ j => exact .inr ⟨j, by omega, (addr_succ_add a j).symm⟩

theorem spanAddrs_add (a : Addr) (j k : Nat) : spanAddrs a (j + k) = spanAddrs a j ++ spanAddrs (a + BitVec.ofNat 32 j) k := by
  induction j generalizing a with
  | zero => simp [spanAddrs]
  | succ j ih => rw [Nat.succ_add, spanAddrs, spanAddrs, ih, addr_succ_add, List.cons_append]

/-- An address does not stand in the span that follows it, unless that span goes all the way round. -/
theorem notMem_spanAddrs_succ (a : Addr) {k : Nat} (hk : k < 2 ^ 32 - 1) : a ∉ spanAddrs (a + 1) k := by
  rw [mem_spanAddrs]
  rintro ⟨j, hj, h⟩
  bv_omega

/-! ### Storing bytes (R44, R147) -/

theorem storeBytes_wf {m : Memory} (h : Memory.wf m = true) (a : Addr) (vs : List Byte) :
    Memory.wf (storeBytes m a vs) = true := by
  rw [← storeTurns_quiet]
  exact storeTurns_wf h [] a vs

theorem storeBytes_read_other (m : Memory) {a b : Addr} {vs : List Byte} (h : b ∉ spanAddrs a vs.length) :
    Memory.read (storeBytes m a vs) b.toNat = Memory.read m b.toNat := by
  induction vs generalizing m a with
  | nil => rfl
  | cons v vs ih =>
    rw [List.length_cons, spanAddrs, List.mem_cons, not_or] at h
    obtain ⟨hne, hrest⟩ := h
    rw [storeBytes, ih _ hrest, read_write_other v fun e => hne (BitVec.eq_of_toNat_eq e)]

/-- The bytes stored are the bytes that the span reads as. -/
theorem map_read_storeBytes {m : Memory} (h : Memory.wf m = true) (a : Addr) {vs : List Byte} (hl : vs.length ≤ 65535) :
    (spanAddrs a vs.length).map (fun b => Memory.read (storeBytes m a vs) b.toNat) = vs := by
  induction vs generalizing m a with
  | nil => rfl
  | cons v vs ih =>
    rw [List.length_cons] at hl ⊢
    have hwf := write_wf h a v
    have hfirst : Memory.read (storeBytes (Memory.write m a.toNat v) (a + 1) vs) a.toNat = v := by
      rw [storeBytes_read_other _ (notMem_spanAddrs_succ a (by omega))]
      exact read_write_same h a.toNat v
    rw [spanAddrs, List.map_cons, storeBytes, hfirst, ih hwf (a + 1) (by omega)]

theorem spanAddrs_getElem? (a : Addr) {j k : Nat} (h : j < k) : (spanAddrs a k)[j]? = some (a + BitVec.ofNat 32 j) := by
  obtain ⟨d, rfl⟩ := Nat.exists_eq_add_of_lt h
  rw [Nat.add_assoc, spanAddrs_add, List.getElem?_append_right (by simp), spanAddrs_length, Nat.sub_self, spanAddrs,
    List.getElem?_cons_zero]

/-- Settles O42: addresses of a span shorter than the address space are distinct. -/
theorem storedBytesReadBack : Obligations.StoredBytesReadBack := by
  intro m a vs hwf hl
  refine ⟨storeBytes_wf hwf a vs, fun j hj => ?_, fun b hb => storeBytes_read_other m hb⟩
  have hread := congrArg (fun l : List Byte => l[j]?) (map_read_storeBytes hwf a hl)
  simpa only [List.getElem?_map, spanAddrs_getElem? a hj, Option.map_some] using hread

end Sys2Proof.Machine

/-! PROOFS. The frames of the operations: which reach no target memory, which only read it, and what the others can store to
(R46 to R48). -/

namespace Sys2Proof.Machine

open Sys2Proof

/-! ### What a rule may do to target memory -/

/-- From `s` to `t` neither target memory nor the Receive Context has changed, and no access was made. -/
structure Silent (s t : State) : Prop where
  mem    : t.mem = s.mem
  target : t.target = s.target
  rx     : t.rx = s.rx
  trace  : ∃ new, t.trace = s.trace ++ new ∧ ∀ o ∈ new, o.isAccess = false

/-- From `s` to `t` the block has made no write of target memory: whatever bytes changed, the target program changed them. -/
structure ReadsOnly (s t : State) : Prop where
  spares : ∀ a, Spares a s t
  trace  : ∃ new, t.trace = s.trace ++ new ∧ ∀ o ∈ new, o.isWrite = false

/-- Traces that grow by observations with the property `p` do so along a run. -/
theorem trace_trans {p : Obs → Prop} {s t u : State} (h : ∃ new, t.trace = s.trace ++ new ∧ ∀ o ∈ new, p o)
    (h' : ∃ new, u.trace = t.trace ++ new ∧ ∀ o ∈ new, p o) : ∃ new, u.trace = s.trace ++ new ∧ ∀ o ∈ new, p o := by
  obtain ⟨new, hnew, hp⟩ := h
  obtain ⟨new', hnew', hp'⟩ := h'
  exact ⟨new ++ new', by rw [hnew', hnew, List.append_assoc],
    fun o ho => (List.mem_append.mp ho).elim (hp o) (hp' o)⟩

theorem Silent.refl (s : State) : Silent s s := ⟨rfl, rfl, rfl, [], (List.append_nil _).symm, nofun⟩

theorem Silent.trans {s t u : State} (h : Silent s t) (h' : Silent t u) : Silent s u :=
  ⟨h'.mem.trans h.mem, h'.target.trans h.target, h'.rx.trans h.rx, trace_trans h.trace h'.trace⟩

theorem ReadsOnly.trans {s t u : State} (h : ReadsOnly s t) (h' : ReadsOnly t u) : ReadsOnly s u :=
  ⟨fun a => (h.spares a).trans (h'.spares a), trace_trans h.trace h'.trace⟩

theorem isWrite_of_isAccess {o : Obs} (h : o.isAccess = false) : o.isWrite = false := by
  cases o with
  | memWrite a v => cases h
  | _ => rfl

theorem Silent.readsOnly {s t : State} (h : Silent s t) : ReadsOnly s t := by
  obtain ⟨new, hnew, hp⟩ := h.trace
  exact ⟨fun _ => Spares.of_eq h.mem h.target, new, hnew, fun o ho => isWrite_of_isAccess (hp o ho)⟩

theorem ReadsOnly.refl (s : State) : ReadsOnly s s := (Silent.refl s).readsOnly

theorem Silent.accesses {s t : State} (h : Silent s t) : t.accesses = s.accesses := by
  obtain ⟨new, hnew, hp⟩ := h.trace
  have hnone : new.filter Obs.isAccess = [] := List.filter_eq_nil_iff.mpr fun o ho => by simp [hp o ho]
  rw [State.accesses, State.accesses, hnew, List.filter_append, hnone, List.append_nil]

/-- A rule that went on did so through both of its parts. -/
theorem andThen_eq_done {α β : Type} {r : Res α} {k : α → State → Res β} {b : β} {u : State}
    (h : r.andThen k = .done b u) : ∃ a t, r = .done a t ∧ k a t = .done b u := by
  cases r with
  | done a t => exact ⟨a, t, rfl, h⟩
  | halt t => cases h
  | stop f => cases h

/-- A transitive relation that holds along both parts of a rule holds along the whole. -/
theorem all_bind_of_trans {α β : Type} {R : State → State → Prop} {s : State} {r : Res α} {k : α → State → Res β}
    (htrans : ∀ {s t u}, R s t → R t u → R s u) (h : r.All (R s)) (hk : ∀ a t, r = .done a t → (k a t).All (R t)) :
    (r.andThen k).All (R s) := by
  cases r with
  | done a t => exact (hk a t rfl).mono fun _ hu => htrans h hu
  | halt t => exact h
  | stop f => trivial

/-! ### The operations that reach no target memory -/

theorem raised_silent (s : State) (k : FaultKind) : Silent s (s.raised k) :=
  ⟨rfl, rfl, rfl, [], (List.append_nil _).symm, nofun⟩

theorem withTx_silent (s : State) (t : TxCtx) : Silent s (s.withTx t) :=
  ⟨rfl, rfl, rfl, [], (List.append_nil _).symm, nofun⟩

theorem observe_silent (s : State) {o : Obs} (h : o.isAccess = false) : Silent s (s.observe o) :=
  ⟨rfl, rfl, rfl, [o], rfl, fun _ ho => List.mem_singleton.mp ho ▸ h⟩

theorem emit_withTx_silent (s : State) (b : Byte) (t : TxCtx) : Silent s ((emit b s).withTx t) :=
  (observe_silent s rfl).trans (withTx_silent _ t)

theorem stage_silent (n : Nat) (v : Byte) (s : State) : (stage n v s).All (Silent s) := by
  unfold stage txPut
  split
  · exact withTx_silent s _
  · trivial

theorem stageAll_silent (n : Nat) (vs : List Byte) (s : State) : (stageAll n vs s).All (Silent s) := by
  induction vs generalizing n s with
  | nil => exact Silent.refl s
  | cons v vs ih => exact all_bind_of_trans Silent.trans (stage_silent n v s) fun _ t _ => ih (n + 1) t

theorem encodeFrame_silent (cmd : RespCode) (seq : Byte) (n : Nat) (s : State) :
    (encodeFrame cmd seq n s).All (Silent s) := by
  rcases encodeFrame_cases s cmd seq n with ⟨f, h⟩ | ⟨payload, buf, -, -, h⟩ <;> rw [h]
  · trivial
  · exact emit_withTx_silent s _ _

theorem errorResponse_silent (code : ErrCode) (seq : Byte) (s : State) : (errorResponse code seq s).All (Silent s) :=
  all_bind_of_trans Silent.trans (stage_silent _ _ s) fun _ t _ => encodeFrame_silent _ _ _ t

theorem writeResponse_silent (seq : Byte) (s : State) : (writeResponse seq s).All (Silent s) :=
  all_bind_of_trans Silent.trans (stage_silent _ _ s) fun _ t _ => encodeFrame_silent _ _ _ t

theorem stagedResponse_silent (seq count : Byte) (values : List Byte) (s : State) :
    (stagedResponse seq count values s).All (Silent s) :=
  all_bind_of_trans Silent.trans (stageAll_silent _ _ s) fun _ t _ => encodeFrame_silent _ _ _ t

theorem txSlot_silent (s : State) : (txSlot s).All (Silent s) := by
  rcases txSlot_cases s with ⟨b, -, -, -, h⟩ | ⟨-, h⟩ | ⟨-, -, -, h⟩ <;> rw [h]
  · exact emit_withTx_silent s b _
  · exact withTx_silent s _
  · trivial

theorem silent_of_requireIdle {α : Type} {s t : State} (k : State → Res α) (hk : (k s).All (Silent s))
    (h : whenRunning s (fun s => (requireIdle s k).outcome) = .next t) : Silent s t :=
  all_of_requireIdle k hk (raised_silent s _) h

/-- Settles O51: INIT writes the contexts and the capability; the others are within `Silent`. -/
theorem registerOnlyFrame : Obligations.RegisterOnlyFrame := by
  intro i s t hi h
  by_cases hinit : ∃ e, i = .init e
  · obtain ⟨e, rfl⟩ := hinit
    rw [exec_init_next h]
    exact ⟨rfl, rfl, rfl, fun hne => absurd rfl (hne e)⟩
  · suffices hs : Silent s t from ⟨hs.mem, hs.target, hs.accesses, fun _ => hs.rx⟩
    rcases hi with hi | rfl | rfl | rfl | ⟨seq, payload, rfl⟩ | ⟨cmd, seq, payload, rfl⟩ | ⟨bytes, rfl⟩ | ⟨c, seq, n, rfl⟩ |
      ⟨seq, count, values, rfl⟩ | ⟨seq, rfl⟩ | ⟨seq, rfl⟩ | ⟨code, seq, rfl⟩
    · exact absurd hi hinit
    · exact all_of_whenRunning txSlot (txSlot_silent s) h
    · exact all_of_whenRunning (fun s => .done () (s.observe (.busy s.isBusy))) (observe_silent s rfl) h
    · exact all_of_whenRunning (fun s => .done () (s.observe (.version s.cfg.version))) (observe_silent s rfl) h
    · exact silent_of_requireIdle (pongResponse seq) (encodeFrame_silent _ _ _ s) h
    · exact silent_of_requireIdle (errorResponse .unknownCmd seq) (errorResponse_silent _ _ s) h
    · rw [exec_crc16_next h]
      exact observe_silent s rfl
    · exact silent_of_requireIdle (encodeFrame c seq n) (encodeFrame_silent _ _ _ s) h
    · exact silent_of_requireIdle (stagedResponse seq count values) (stagedResponse_silent _ _ _ s) h
    · exact silent_of_requireIdle (writeResponse seq) (writeResponse_silent _ s) h
    · exact silent_of_requireIdle (pongResponse seq) (encodeFrame_silent _ _ _ s) h
    · exact silent_of_requireIdle (errorResponse code seq) (errorResponse_silent _ _ s) h

/-! ### READ -/

theorem memRead_readsOnly (a : Addr) (s : State) : (memRead a s).All (ReadsOnly s) := by
  have hspares := fun b => memRead_spares b a s
  cases h : s.cfg.serves a with
  | true =>
    rw [memRead_served h] at hspares ⊢
    refine ⟨hspares, [.memRead a ((targetTurn s).byteAt a)], by simp, fun o ho => ?_⟩
    rw [List.mem_singleton.mp ho]
    rfl
  | false => rw [memRead_unmapped h]; exact (raised_silent s _).readsOnly

theorem readsOnly_of_silent {α : Type} {s : State} {r : Res α} (h : r.All (Silent s)) : r.All (ReadsOnly s) :=
  h.mono fun _ ht => ht.readsOnly

theorem abort_readsOnly {α : Type} (seq : Byte) (s : State) : (abortInvalidSize seq s : Res (Option α)).All (ReadsOnly s) :=
  all_bind_of_trans ReadsOnly.trans (readsOnly_of_silent (errorResponse_silent _ _ s)) fun _ t _ => ReadsOnly.refl t

theorem readBytes_readsOnly (k : Nat) (a : Addr) (n : Nat) (s : State) : (readBytes k a n s).All (ReadsOnly s) := by
  induction k generalizing a n s with
  | zero => exact ReadsOnly.refl s
  | succ k ih =>
    exact all_bind_of_trans ReadsOnly.trans (memRead_readsOnly a s) fun v t _ =>
      all_bind_of_trans ReadsOnly.trans (readsOnly_of_silent (stage_silent n v t)) fun _ u _ => ih _ _ u

theorem readFull_readsOnly (seq : Byte) (a : Addr) (size : Half) (n : Nat) (s : State) :
    (readFull seq a size n s).All (ReadsOnly s) := by
  unfold readFull
  split
  · exact abort_readsOnly seq s
  · exact all_bind_of_trans ReadsOnly.trans (readBytes_readsOnly _ _ _ s) fun _ t _ => ReadsOnly.refl t

theorem readBit_readsOnly (seq : Byte) (a : Addr) (off w : Byte) (n : Nat) (s : State) :
    (readBit seq a off w n s).All (ReadsOnly s) := by
  unfold readBit
  split
  · exact abort_readsOnly seq s
  · exact all_bind_of_trans ReadsOnly.trans (memRead_readsOnly a s) fun v t _ =>
      all_bind_of_trans ReadsOnly.trans (readsOnly_of_silent (stage_silent _ _ t)) fun _ u _ => ReadsOnly.refl u

theorem readDesc_readsOnly (seq : Byte) (d : Desc) (n : Nat) (s : State) : (readDesc seq d n s).All (ReadsOnly s) := by
  unfold readDesc
  split
  · exact readFull_readsOnly _ _ _ _ s
  · exact readBit_readsOnly _ _ _ _ _ s

theorem readLoop_readsOnly (seq : Byte) (k : Nat) (rest : List Byte) (n : Nat) (s : State) :
    (readLoop seq k rest n s).All (ReadsOnly s) := by
  induction k generalizing rest n s with
  | zero => exact ReadsOnly.refl s
  | succ k ih =>
    rw [readLoop]
    split
    · trivial
    · refine all_bind_of_trans ReadsOnly.trans (readDesc_readsOnly seq _ n s) fun r t _ => ?_
      cases r with
      | none => exact ReadsOnly.refl t
      | some n => exact ih _ n t

theorem readHandler_readsOnly (seq : Byte) (payload : List Byte) (s : State) :
    (readHandler seq payload s).All (ReadsOnly s) := by
  have herror := readsOnly_of_silent (errorResponse_silent .invalidSize seq s)
  unfold readHandler
  split
  · exact herror
  · split_ifs
    · exact herror
    · exact herror
    · refine all_bind_of_trans ReadsOnly.trans (readsOnly_of_silent (stage_silent _ _ s)) fun _ t _ =>
        all_bind_of_trans ReadsOnly.trans (readLoop_readsOnly _ _ _ _ t) fun r u _ => ?_
      cases r with
      | none => exact ReadsOnly.refl u
      | some n => exact readsOnly_of_silent (encodeFrame_silent _ _ _ u)

/-- The rules of READ, READ.FULL and READ.BIT keep what `Keeps` names and write no target memory. -/
theorem readFamily_of_requireIdle {α : Type} {s t : State} (k : State → Res α) (hkeeps : (k s).All (Keeps s))
    (hreads : (k s).All (ReadsOnly s)) (h : whenRunning s (fun s => (requireIdle s k).outcome) = .next t) :
    Keeps s t ∧ ReadsOnly s t :=
  ⟨keeps_of_requireIdle k hkeeps h, all_of_requireIdle k hreads (raised_silent s _).readsOnly h⟩

/-- Settles O35: the rules of READ are within `Keeps` and `ReadsOnly`. -/
theorem readFamilyFrame : Obligations.ReadFamilyFrame := by
  intro i s t hi h
  have hframe : Keeps s t ∧ ReadsOnly s t := by
    rcases hi with ⟨seq, payload, rfl⟩ | ⟨seq, n, a, size, w, rfl⟩ | ⟨seq, n, a, size, off, w, rfl⟩
    · exact readFamily_of_requireIdle (readHandler seq payload) (readHandler_keeps _ _ s) (readHandler_readsOnly _ _ s) h
    · exact readFamily_of_requireIdle (readFull seq a size n) (readFull_keeps _ _ _ _ s) (readFull_readsOnly _ _ _ _ s) h
    · exact readFamily_of_requireIdle (readBit seq a off w n) (readBit_keeps _ _ _ _ _ s) (readBit_readsOnly _ _ _ _ _ s) h
  obtain ⟨hk, hr⟩ := hframe
  exact ⟨hk.cfg, hk.rx, hk.emitter, hk.init, hk.pending, hr.trace, fun a ha => (hr.spares a ha).2⟩

/-! ### WRITE -/

section Write

variable {a : Addr}

theorem writeFull_spares {b : Addr} {size : Half} (h : a ∉ spanAddrs b size.toNat) (seq : Byte) (rest : List Byte) (s : State) :
    (writeFull seq b size rest s).All (Spares a s) := by
  unfold writeFull
  split
  · exact abort_spares a seq s
  · rename_i hlen
    have htake : (rest.take size.toNat).length = size.toNat := List.length_take_of_le (Nat.not_lt.mp hlen)
    exact all_spares_bind (writeBytes_spares b _ s (by rwa [htake])) fun _ t => Spares.refl a t

theorem writeBit_spares {b : Addr} (h : a ≠ b) (seq off w : Byte) (rest : List Byte) (s : State) :
    (writeBit seq b off w rest s).All (Spares a s) := by
  unfold writeBit
  split
  · exact abort_spares a seq s
  · exact all_spares_bind (memRead_spares a b s) fun old t =>
      all_spares_bind (memWrite_spares h _ t) fun _ u => Spares.refl a u

theorem writeElem_spares {d : Desc} (h : a ∉ descAddrs d) (seq : Byte) (rest : List Byte) (s : State) :
    (writeElem seq d rest s).All (Spares a s) := by
  unfold writeElem
  unfold descAddrs at h
  split_ifs at h ⊢
  · exact writeFull_spares h seq rest s
  · exact writeBit_spares (fun e => h (List.mem_singleton.mpr e)) seq _ _ rest s

/-- A WRITE element that is not aborted takes exactly its data from the payload (R147, R148). -/
theorem writeElem_rest {seq : Byte} {d : Desc} {rest rest' : List Byte} {s t : State}
    (h : writeElem seq d rest s = .done (some rest') t) : rest' = rest.drop (descDataLen d) := by
  unfold writeElem writeFull writeBit abortInvalidSize at h
  unfold descDataLen
  split_ifs at h ⊢ with hfull hlen
  · obtain ⟨_, _, _, h⟩ := andThen_eq_done h; cases h
  · obtain ⟨_, _, _, h⟩ := andThen_eq_done h; cases h; rfl
  · split at h
    · obtain ⟨_, _, _, h⟩ := andThen_eq_done h; cases h
    · obtain ⟨_, _, _, h⟩ := andThen_eq_done h
      obtain ⟨_, _, _, h⟩ := andThen_eq_done h
      cases h
      rfl

theorem writeLoop_spares {k : Nat} {rest : List Byte} (h : a ∉ walkAddrs k rest) (seq : Byte) (s : State) :
    (writeLoop seq k rest s).All (Spares a s) := by
  induction k generalizing rest s with
  | zero => exact Spares.refl a s
  | succ k ih =>
    rw [walkAddrs] at h
    rw [writeLoop]
    cases hparse : parseDesc rest with
    | none => exact abort_spares a seq s
    | some dr =>
      obtain ⟨d, rest⟩ := dr
      rw [hparse] at h
      obtain ⟨hd, hwalk⟩ := not_or.mp (mt List.mem_append.mpr h)
      refine all_bind_of_trans Spares.trans (writeElem_spares hd seq rest s) fun r t hr => ?_
      cases r with
      | none => exact Spares.refl a t
      | some rest' => rw [← writeElem_rest hr] at hwalk; exact ih hwalk t

theorem writeHandler_spares {payload : List Byte} (h : a ∉ writeAddrs payload) (seq : Byte) (s : State) :
    (writeHandler seq payload s).All (Spares a s) := by
  have herror := errorResponse_spares a .invalidSize seq s
  unfold writeHandler
  split
  · exact herror
  · split_ifs
    · exact herror
    · refine all_bind_of_trans Spares.trans (writeLoop_spares h seq s) fun r t _ => ?_
      cases r with
      | none => exact Spares.refl a t
      | some rest => exact (writeResponse_silent seq t).mono fun _ hu => hu.readsOnly.spares a

end Write

/-- The rules of WRITE, WRITE.FULL and WRITE.BIT keep what `Keeps` names and spare what lies outside the addresses `stored`. -/
theorem writeFamily_of_requireIdle {α : Type} {s t : State} {stored : List Addr} (k : State → Res α)
    (hkeeps : (k s).All (Keeps s)) (hspares : ∀ a, a ∉ stored → (k s).All (Spares a s))
    (h : whenRunning s (fun s => (requireIdle s k).outcome) = .next t) :
    Keeps s t ∧ ∀ a, a ∉ stored → Spares a s t :=
  ⟨keeps_of_requireIdle k hkeeps h, fun a ha => all_of_requireIdle k (hspares a ha) ((raised_silent s _).readsOnly.spares a) h⟩

/-- Settles O43: the rules of WRITE are within `Keeps` and spare each address their elements do not name. -/
theorem writeFamilyFrame : Obligations.WriteFamilyFrame := by
  intro i stored s t hi h
  have hframe : Keeps s t ∧ ∀ a, a ∉ stored → Spares a s t := by
    rcases hi with ⟨seq, payload, rfl, rfl⟩ | ⟨seq, b, size, w, rest, rfl, rfl⟩ | ⟨seq, b, size, off, w, rest, rfl, rfl⟩
    · exact writeFamily_of_requireIdle (writeHandler seq payload) (writeHandler_keeps _ _ s)
        (fun a ha => writeHandler_spares ha _ s) h
    · exact writeFamily_of_requireIdle (writeFull seq b size rest) (writeFull_keeps _ _ _ _ s)
        (fun a ha => writeFull_spares ha _ _ s) h
    · exact writeFamily_of_requireIdle (writeBit seq b off w rest) (writeBit_keeps _ _ _ _ _ s)
        (fun a ha => writeBit_spares (fun e => ha (List.mem_singleton.mpr e)) _ _ _ _ s) h
  obtain ⟨hk, hs⟩ := hframe
  exact ⟨hk.cfg, hk.rx, hk.emitter, hk.init, hk.pending, fun a hout ha => (hs a hout ha).2⟩

end Sys2Proof.Machine

/-! PROOFS. How the rules of a completed frame end: a rule that goes on has sent one response or raised nothing, one that halts
met an address that is not served, and over a buffer of its capacity none stops (R110, R120, R128, R203). -/

namespace Sys2Proof.Machine

open Sys2Proof

/-! ### Ends -/

/-- A rule that goes on does so with `D` of its value and state; one that halts leaves a state with `H`; one stops only if `S`. -/
def Res.Ends {α : Type} (D : α → State → Prop) (H : State → Prop) (S : Prop) : Res α → Prop
  | .done a t => D a t
  | .halt t => H t
  | .stop _ => S

theorem Res.Ends.mono {α : Type} {D D' : α → State → Prop} {H H' : State → Prop} {S : Prop} {r : Res α} (h : r.Ends D H S)
    (hd : ∀ a t, D a t → D' a t) (hh : ∀ t, H t → H' t) : r.Ends D' H' S := by
  cases r with
  | done a t => exact hd a t h
  | halt t => exact hh t h
  | stop f => exact h

theorem Res.Ends.andThen {α β : Type} {D : α → State → Prop} {D' : β → State → Prop} {H : State → Prop} {S : Prop} {r : Res α}
    {k : α → State → Res β} (h : r.Ends D H S) (hk : ∀ a t, D a t → (k a t).Ends D' H S) : (r.andThen k).Ends D' H S := by
  cases r with
  | done a t => exact hk a t h
  | halt t => exact h
  | stop f => exact h

/-! ### What a handler has done so far -/

/-- From `s` to `t` the block has emitted nothing and raised no fault. -/
structure Works (s t : State) : Prop where
  cfg    : t.cfg = s.cfg
  fault  : t.fault = s.fault
  output : t.output = s.output

/-- From `s` to `t` the block has sent one response with the sequence byte `seq`, begun its emission, and raised no fault (R128). -/
def Responds (seq : Byte) (s t : State) : Prop :=
  ∃ u c payload, Works s u ∧ Answers u t c seq payload ∧ payload.length ≤ s.cfg.maxPayload

/-- The transmit buffer has its capacity and the response payload its first `n` bytes, unless a stop is excused by `S`. -/
structure Room (S : Prop) (n : Nat) (s : State) : Prop where
  fits    : n ≤ s.cfg.maxPayload
  pos     : 1 ≤ s.cfg.maxPayload
  written : S ∨ s.tx.buf.length = s.cfg.txCap ∧ ∀ i, i < n → (Buf.cell? s.tx.buf (5 + i)).isSome = true

/-- The fault of an access that is not served (R49). -/
def Unmapped (s : State) : Prop := s.fault = some .memUnmapped

theorem Works.refl (s : State) : Works s s := ⟨rfl, rfl, rfl⟩

theorem Works.trans {s t u : State} (h : Works s t) (h' : Works t u) : Works s u :=
  ⟨h'.cfg.trans h.cfg, h'.fault.trans h.fault, h'.output.trans h.output⟩

theorem Works.responds {seq : Byte} {s t u : State} (h : Works s t) (h' : Responds seq t u) : Responds seq s u := by
  obtain ⟨v, c, payload, hw, ha, hl⟩ := h'
  exact ⟨v, c, payload, h.trans hw, ha, h.cfg ▸ hl⟩

theorem Responds.fault {seq : Byte} {s t : State} (h : Responds seq s t) : t.fault = s.fault := by
  obtain ⟨u, c, payload, hw, ⟨buf, rfl, -⟩, -⟩ := h
  exact hw.fault

section

variable {S : Prop} {H : State → Prop}

theorem Room.zero {n : Nat} {s : State} (h : Room S n s) : Room S 0 s :=
  ⟨Nat.zero_le _, h.pos, h.written.imp_right fun hw => ⟨hw.1, nofun⟩⟩

theorem Room.of_eq {n : Nat} {s t : State} (h : Room S n s) (hc : t.cfg = s.cfg) (ht : t.tx = s.tx) : Room S n t := by
  obtain ⟨hf, hs, hw⟩ := h
  exact ⟨by rwa [hc], by rwa [hc], by rwa [hc, ht]⟩

theorem Running.room_zero {s : State} (h : Running s) (hcap : S ∨ s.tx.buf.length = s.cfg.txCap) : Room S 0 s :=
  ⟨Nat.zero_le _, (ok_bounds h.cfgOk).1, hcap.imp_right fun hc => ⟨hc, nofun⟩⟩

/-! ### Shared operations -/

theorem memRead_ends (a : Addr) (s : State) :
    (memRead a s).Ends (fun _ t => Works s t ∧ ∀ {n}, Room S n s → Room S n t) Unmapped S := by
  cases h : s.cfg.serves a with
  | true =>
    rw [memRead_served h]
    exact ⟨⟨by simp, by simp, by simp [State.output, Obs.emitted?]⟩, fun hr => hr.of_eq (by simp) (by simp)⟩
  | false => rw [memRead_unmapped h]; rfl

theorem memWrite_ends (a : Addr) (v : Byte) (s : State) :
    (memWrite a v s).Ends (fun _ t => Works s t ∧ ∀ {n}, Room S n s → Room S n t) Unmapped S := by
  cases h : s.cfg.serves a with
  | true =>
    rw [memWrite_served v h]
    exact ⟨⟨by simp, by simp, by simp [State.output, Obs.emitted?]⟩, fun hr => hr.of_eq (by simp) (by simp)⟩
  | false => rw [memWrite_unmapped v h]; rfl

theorem stage_ends {n : Nat} {s : State} (h : Room S n s) (hn : n < s.cfg.maxPayload) (v : Byte) :
    (stage n v s).Ends (fun _ t => Works s t ∧ Room S (n + 1) t) H S := by
  obtain ⟨hfits, hpos, hw⟩ := h
  by_cases hlt : 5 + n < s.tx.buf.length
  · rw [stage_of_lt v hlt]
    refine ⟨⟨rfl, rfl, rfl⟩, hn, hpos, hw.imp_right fun ⟨hcap, hcells⟩ => ⟨by simpa using hcap, fun i hi => ?_⟩⟩
    rcases Nat.lt_succ_iff_lt_or_eq.mp hi with hi | rfl
    · exact isSome_cell?_set hlt (hcells i hi)
    · rw [withTx_tx, cell?_set_same v hlt]; rfl
  · rw [stage, txPut, Buf.put?, if_neg hlt]
    refine hw.resolve_right fun ⟨hcap, _⟩ => hlt ?_
    rw [hcap, Params.txCap]
    omega

theorem encodeFrame_ends {n : Nat} {s : State} (h : Room S n s) (cmd : RespCode) (seq : Byte) :
    (encodeFrame cmd seq n s).Ends (fun _ t => Responds seq s t) H S := by
  cases hp : Buf.span? s.tx.buf 5 n with
  | some payload =>
    obtain ⟨t, ht, ha⟩ := encodeFrame_answers (cmd := cmd) (seq := seq) hp h.fits
    rw [ht]
    exact ⟨s, cmd, payload, Works.refl s, ha, (span?_some hp).1 ▸ h.fits⟩
  | none =>
    have hstop : encodeFrame cmd seq n s = .stop .unwrittenCell := by simp only [encodeFrame, readSpan, hp, andThen_stop]
    rw [hstop]
    refine h.written.resolve_right fun ⟨_, hcells⟩ => ?_
    obtain ⟨bs, hbs⟩ := span?_isSome hcells
    rw [hp] at hbs
    cases hbs

/-- One byte is staged at the payload's offset 0, and its frame sent. -/
theorem stage_encodeFrame_ends {n : Nat} {s : State} (h : Room S n s) (v : Byte) (cmd : RespCode) (seq : Byte) :
    ((stage 0 v s).andThen fun _ t => encodeFrame cmd seq 1 t).Ends (fun _ t => Responds seq s t) H S :=
  (stage_ends h.zero h.pos v).andThen fun _ _ ⟨hw, hr⟩ =>
    (encodeFrame_ends hr cmd seq).mono (fun _ _ => hw.responds) fun _ => id

theorem errorResponse_ends {n : Nat} {s : State} (h : Room S n s) (code : ErrCode) (seq : Byte) :
    (errorResponse code seq s).Ends (fun _ t => Responds seq s t) H S :=
  stage_encodeFrame_ends h _ _ _

theorem writeResponse_ends {n : Nat} {s : State} (h : Room S n s) (seq : Byte) :
    (writeResponse seq s).Ends (fun _ t => Responds seq s t) H S :=
  stage_encodeFrame_ends h _ _ _

/-- How one descriptor's rule leaves its handler: aborted, with the error response sent, or going on with room for `n` bytes. -/
def GoesOn {α : Type} (S : Prop) (seq : Byte) (s : State) (n : α → Nat) : Option α → State → Prop
  | none, t => Responds seq s t
  | some a, t => Works s t ∧ Room S (n a) t

theorem Works.goesOn {α : Type} {seq : Byte} {s t u : State} {n : α → Nat} {r : Option α} (h : Works s t)
    (h' : GoesOn S seq t n r u) : GoesOn S seq s n r u := by
  cases r with
  | none => exact h.responds h'
  | some a => exact ⟨h.trans h'.1, h'.2⟩

theorem abort_ends {α : Type} {m : Nat} {s : State} (h : Room S m s) (seq : Byte) (n : α → Nat) :
    (abortInvalidSize seq s : Res (Option α)).Ends (GoesOn S seq s n) H S :=
  (errorResponse_ends h .invalidSize seq).andThen fun _ _ hr => hr

/-! ### READ -/

theorem readBytes_ends {k n : Nat} {s : State} (h : Room S n s) (hk : n + k ≤ s.cfg.maxPayload) (a : Addr) :
    (readBytes k a n s).Ends (fun m t => Works s t ∧ Room S m t) Unmapped S := by
  induction k generalizing a n s with
  | zero => exact ⟨Works.refl s, h⟩
  | succ k ih =>
    refine (memRead_ends a s).andThen fun v t ⟨hw, hr⟩ => ?_
    refine (stage_ends (hr h) (by rw [hw.cfg]; omega) v).andThen fun _ u ⟨hw', hr'⟩ => ?_
    exact (ih hr' (by rw [hw'.cfg, hw.cfg]; omega) (a + 1)).mono
      (fun _ _ h'' => ⟨(hw.trans hw').trans h''.1, h''.2⟩) fun _ => id

theorem readDesc_ends {n : Nat} {s : State} (h : Room S n s) (seq : Byte) (d : Desc) :
    (readDesc seq d n s).Ends (GoesOn S seq s id) Unmapped S := by
  unfold readDesc readFull readBit
  split_ifs with hfull hcap hcap
  · exact abort_ends h seq id
  · exact (readBytes_ends h (Nat.not_lt.mp hcap) d.addr).andThen fun _ _ h' => h'
  · exact abort_ends h seq id
  · refine (memRead_ends d.addr s).andThen fun v t ⟨hw, hr⟩ => ?_
    refine (stage_ends (hr h) (by rw [hw.cfg]; omega) _).andThen fun _ u ⟨hw', hr'⟩ => ?_
    exact ⟨hw.trans hw', hr'⟩

theorem parseDesc_of_length {rest : List Byte} (h : 8 ≤ rest.length) :
    ∃ d, parseDesc rest = some (d, rest.drop 8) := by
  match rest, h with
  | _ :: _ :: _ :: _ :: _ :: _ :: _ :: _ :: rest, _ => exact ⟨_, rfl⟩

theorem readLoop_ends {k n : Nat} {rest : List Byte} {s : State} (h : Room S n s) (hk : 8 * k ≤ rest.length) (seq : Byte) :
    (readLoop seq k rest n s).Ends (GoesOn S seq s id) Unmapped S := by
  induction k generalizing rest n s with
  | zero => exact ⟨Works.refl s, h⟩
  | succ k ih =>
    obtain ⟨d, hparse⟩ := parseDesc_of_length (rest := rest) (by omega)
    rw [readLoop, hparse]
    refine (readDesc_ends h seq d).andThen fun r t hr => ?_
    cases r with
    | none => exact hr
    | some m => exact (ih hr.2 (by rw [List.length_drop]; omega)).mono (fun _ _ => hr.1.goesOn) fun _ => id

theorem readHandler_ends {s : State} (h : Room S 0 s) (seq : Byte) (payload : List Byte) :
    (readHandler seq payload s).Ends (fun _ t => Responds seq s t) Unmapped S := by
  unfold readHandler
  split
  · exact errorResponse_ends h _ _
  · split_ifs with hcount hlen
    · exact errorResponse_ends h _ _
    · exact errorResponse_ends h _ _
    · rw [List.length_cons] at hlen
      refine (stage_ends h h.pos _).andThen fun _ t ⟨hw, hr⟩ => ?_
      refine (readLoop_ends hr (by omega) seq).andThen fun r u hu => ?_
      cases r with
      | none => exact hw.responds hu
      | some n => exact (encodeFrame_ends hu.2 _ seq).mono (fun _ _ => (hw.trans hu.1).responds) fun _ => id

/-! ### WRITE -/

theorem writeBytes_ends {s : State} (a : Addr) (vs : List Byte) :
    (writeBytes a vs s).Ends (fun _ t => Works s t ∧ ∀ {n}, Room S n s → Room S n t) Unmapped S := by
  induction vs generalizing a s with
  | nil => exact ⟨Works.refl s, id⟩
  | cons v vs ih =>
    exact (memWrite_ends a v s).andThen fun _ t ⟨hw, hr⟩ =>
      (ih (a + 1)).mono (fun _ _ h => ⟨hw.trans h.1, fun h' => h.2 (hr h')⟩) fun _ => id

theorem writeElem_ends {s : State} (h : Room S 0 s) (seq : Byte) (d : Desc) (rest : List Byte) :
    (writeElem seq d rest s).Ends (GoesOn S seq s fun _ => 0) Unmapped S := by
  unfold writeElem writeFull writeBit
  split_ifs with hfull hlen
  · exact abort_ends h seq _
  · exact (writeBytes_ends d.addr _).andThen fun _ t ht => ⟨ht.1, ht.2 h⟩
  · split
    · exact abort_ends h seq _
    · refine (memRead_ends d.addr s).andThen fun v t ⟨hw, hr⟩ => ?_
      refine (memWrite_ends d.addr _ t).andThen fun _ u ⟨hw', hr'⟩ => ?_
      exact ⟨hw.trans hw', hr' (hr h)⟩

theorem writeLoop_ends {k : Nat} {rest : List Byte} {s : State} (h : Room S 0 s) (seq : Byte) :
    (writeLoop seq k rest s).Ends (GoesOn S seq s fun _ => 0) Unmapped S := by
  induction k generalizing rest s with
  | zero => exact ⟨Works.refl s, h⟩
  | succ k ih =>
    rw [writeLoop]
    split
    · exact abort_ends h seq _
    · refine (writeElem_ends h seq _ _).andThen fun r t hr => ?_
      cases r with
      | none => exact hr
      | some rest => exact (ih hr.2).mono (fun _ _ => hr.1.goesOn) fun _ => id

theorem writeHandler_ends {s : State} (h : Room S 0 s) (seq : Byte) (payload : List Byte) :
    (writeHandler seq payload s).Ends (fun _ t => Responds seq s t) Unmapped S := by
  unfold writeHandler
  split
  · exact errorResponse_ends h _ _
  · split_ifs with hcount
    · exact errorResponse_ends h _ _
    · refine (writeLoop_ends h seq).andThen fun r u hu => ?_
      cases r with
      | none => exact hu
      | some rest => exact (writeResponse_ends hu.2 seq).mono (fun _ _ => hu.1.responds) fun _ => id

/-! ### The dispatch of a completed frame -/

/-- The route halts only at an address that is not served, and only for READ and WRITE. -/
theorem route_ends {s : State} (h : Room S 0 s) (cmd seq : Byte) (payload : List Byte) :
    (route cmd seq payload s).Ends (fun _ t => Responds seq s t)
      (fun t => Unmapped t ∧ (cmd = s.cfg.cmdRead ∨ cmd = s.cfg.cmdWrite)) S := by
  unfold route decodeCommand
  split_ifs with hread hwrite hping
  · exact (readHandler_ends h seq payload).mono (fun _ _ => id) fun _ ht => ⟨ht, .inl hread⟩
  · exact (writeHandler_ends h seq payload).mono (fun _ _ => id) fun _ ht => ⟨ht, .inr hwrite⟩
  · exact encodeFrame_ends h _ _
  · exact errorResponse_ends h _ _

/-- The fault of a dispatch while Idle: a good frame with the command READ or WRITE named an address that is not served (D15). -/
def DispatchFault (s t : State) : Prop :=
  Unmapped t ∧ ∃ f, frameIn s.rx.buf s.rx.len.toNat = some f ∧ crc16 f.covered = f.received ∧
    (f.cmd = s.cfg.cmdRead ∨ f.cmd = s.cfg.cmdWrite)

/-- DISPATCH while Idle answers the frame, or halts as `DispatchFault` says; it stops only where the frame or the transmit
buffer has an unwritten cell. -/
theorem dispatch_ends {s : State} (h : Room S 0 s) (hidle : s.tx.state = .idle)
    (hframe : S ∨ (frameIn s.rx.buf s.rx.len.toNat).isSome = true) :
    (dispatch s).Ends (fun _ t => ∃ f, frameIn s.rx.buf s.rx.len.toNat = some f ∧ Responds f.seq s t) (DispatchFault s) S := by
  rw [dispatch, requireIdle_idle hidle, completedFrame]
  cases hf : frameIn s.rx.buf s.rx.len.toNat with
  | none => exact hframe.resolve_right (by simp [hf])
  | some f =>
    rw [andThen_done]
    split_ifs with hcrc
    · exact (route_ends h f.cmd f.seq f.payload).mono (fun _ _ hr => ⟨f, rfl, hr⟩) fun _ ht => ⟨ht.1, f, hf, hcrc, ht.2⟩
    · exact (errorResponse_ends h .crc f.seq).mono (fun _ _ hr => ⟨f, rfl, hr⟩) fun _ => id

end

end Sys2Proof.Machine

/-! PROOFS. Staging (R26), the responses (R71, R125 to R127, R142, R150) and the emission of a staged frame (R166, R169). -/

namespace Sys2Proof.Machine

open Sys2Proof

/-! ### Staging -/

/-- The buffer with the bytes `vs` in the cells from `i` on. -/
def Buf.putAll : Buf → Nat → List Byte → Buf
  | b, _, [] => b
  | b, i, v :: vs => Buf.putAll (b.set i (some v)) (i + 1) vs

@[simp] theorem putAll_length (b : Buf) (i : Nat) (vs : List Byte) : (Buf.putAll b i vs).length = b.length := by
  induction vs generalizing b i with
  | nil => rfl
  | cons v vs ih => rw [Buf.putAll, ih, List.length_set]

theorem putAll_append (b : Buf) (i : Nat) (vs ws : List Byte) :
    Buf.putAll b i (vs ++ ws) = Buf.putAll (Buf.putAll b i vs) (i + vs.length) ws := by
  induction vs generalizing b i with
  | nil => rfl
  | cons v vs ih => rw [List.cons_append, Buf.putAll, Buf.putAll, ih, List.length_cons, Nat.add_assoc, Nat.add_comm 1]

theorem cell?_putAll_outside (b : Buf) {i j : Nat} {vs : List Byte} (h : j < i ∨ i + vs.length ≤ j) :
    Buf.cell? (Buf.putAll b i vs) j = Buf.cell? b j := by
  induction vs generalizing b i with
  | nil => rfl
  | cons v vs ih =>
    rw [List.length_cons] at h
    rw [Buf.putAll, ih _ (by omega), cell?_set_other v (by omega)]

theorem cell?_putAll_inside {b : Buf} {i j : Nat} {vs : List Byte} (hfit : i + vs.length ≤ b.length) (hj : j < vs.length) :
    Buf.cell? (Buf.putAll b i vs) (i + j) = vs[j]? := by
  induction vs generalizing b i j with
  | nil => cases hj
  | cons v vs ih =>
    rw [List.length_cons] at hfit hj
    rw [Buf.putAll]
    cases j with
    | zero => rw [Nat.add_zero i, cell?_putAll_outside _ (by omega), cell?_set_same v (by omega), List.getElem?_cons_zero]
    | succ j =>
      rw [show i + (j + 1) = i + 1 + j by omega, ih (by rw [List.length_set]; omega) (by omega), List.getElem?_cons_succ]

/-- `s` with the bytes `vs` staged from payload offset `n` on (R26). -/
def State.staged (s : State) (n : Nat) (vs : List Byte) : State :=
  s.withTx { s.tx with buf := s.tx.buf.putAll (5 + n) vs }

theorem staged_append (s : State) (n : Nat) (vs ws : List Byte) :
    s.staged n (vs ++ ws) = (s.staged n vs).staged (n + vs.length) ws := by
  simp only [State.staged, withTx_withTx, withTx_tx, putAll_append, Nat.add_assoc]

theorem stage_eq_staged {s : State} {n : Nat} (v : Byte) (h : 5 + n < s.tx.buf.length) :
    stage n v s = .done () (s.staged n [v]) :=
  stage_of_lt v h

theorem stageAll_eq_staged {s : State} {n : Nat} {vs : List Byte} (h : 5 + n + vs.length ≤ s.tx.buf.length) :
    stageAll n vs s = .done () (s.staged n vs) := by
  induction vs generalizing n s with
  | nil => rfl
  | cons v vs ih =>
    rw [List.length_cons] at h
    rw [stageAll, stage_eq_staged v (by omega), andThen_done, ih (by rw [State.staged, withTx_tx, putAll_length]; omega),
      ← List.singleton_append, staged_append]
    rfl

theorem span?_staged {s : State} {vs : List Byte} (h : 5 + vs.length ≤ s.tx.buf.length) :
    Buf.span? (s.staged 0 vs).tx.buf 5 vs.length = some vs :=
  span?_of_cells fun _ hi => cell?_putAll_inside h hi

/-! ### Responses -/

/-- Encode over the staged payload `vs` answers with its frame. -/
theorem encodeFrame_staged_answers {s : State} {vs : List Byte} (hcap : s.tx.buf.length = s.cfg.txCap)
    (hfit : vs.length ≤ s.cfg.maxPayload) (cmd : RespCode) (seq : Byte) :
    ∃ t, encodeFrame cmd seq vs.length (s.staged 0 vs) = .done () t ∧ Answers s t cmd seq vs :=
  encodeFrame_answers (s := s.staged 0 vs) (span?_staged (by rw [hcap, Params.txCap]; omega)) hfit

/-- A response of one byte: it is staged at the payload's offset 0 and its frame encoded. -/
theorem stage_encodeFrame_answers {s : State} (hcap : s.tx.buf.length = s.cfg.txCap) (hmax : 1 ≤ s.cfg.maxPayload) (v : Byte)
    (cmd : RespCode) (seq : Byte) :
    ∃ t, ((stage 0 v s).andThen fun _ t => encodeFrame cmd seq 1 t) = .done () t ∧ Answers s t cmd seq [v] := by
  rw [stage_eq_staged v (by rw [hcap, Params.txCap]; omega), andThen_done]
  exact encodeFrame_staged_answers (vs := [v]) hcap hmax cmd seq

theorem errorResponse_answers {s : State} (hcap : s.tx.buf.length = s.cfg.txCap) (hmax : 1 ≤ s.cfg.maxPayload) (code : ErrCode)
    (seq : Byte) : ∃ t, errorResponse code seq s = .done () t ∧ Answers s t .error seq [s.cfg.errByte code] :=
  stage_encodeFrame_answers hcap hmax _ _ _

theorem writeResponse_answers {s : State} (hcap : s.tx.buf.length = s.cfg.txCap) (hmax : 1 ≤ s.cfg.maxPayload) (seq : Byte) :
    ∃ t, writeResponse seq s = .done () t ∧ Answers s t .writeResp seq [s.cfg.errOk] :=
  stage_encodeFrame_answers hcap hmax _ _ _

theorem stagedResponse_answers {s : State} (hcap : s.tx.buf.length = s.cfg.txCap) {values : List Byte}
    (hfit : 1 + values.length ≤ s.cfg.maxPayload) (seq count : Byte) :
    ∃ t, stagedResponse seq count values s = .done () t ∧ Answers s t .readResp seq (count :: values) := by
  have hlen : (count :: values).length = 1 + values.length := by rw [List.length_cons, Nat.add_comm]
  rw [stagedResponse, stageAll_eq_staged (by rw [hcap, Params.txCap]; omega), andThen_done, ← hlen]
  exact encodeFrame_staged_answers hcap (by omega) .readResp seq

theorem pongResponse_answers (s : State) (seq : Byte) :
    ∃ t, pongResponse seq s = .done () t ∧ Answers s t .pong seq [] :=
  encodeFrame_answers rfl (Nat.zero_le _)

/-- On a running, Idle block an operation whose rule goes on answers the state its rule leaves. -/
theorem exec_answers_of_idle {α : Type} {s : State} (hr : Running s) (ht : s.tx.state = .idle) (k : State → Res α)
    {i : Instr} (hi : exec i s = whenRunning s fun s => (requireIdle s k).outcome) {P : State → Prop}
    (h : ∃ a t, k s = .done a t ∧ P t) : ∃ t, exec i s = .next t ∧ P t := by
  obtain ⟨a, t, hk, hp⟩ := h
  exact ⟨t, by rw [hi, whenRunning_requireIdle_of hr ht, hk, outcome_done], hp⟩

/-- Settles O21: the payload is staged from offset 0 and framed. -/
theorem readRespAnswers : Obligations.ReadRespAnswers := by
  intro seq count values s hr hi ht hfit
  exact exec_answers_of_idle hr ht (stagedResponse seq count values) rfl
    ⟨(), stagedResponse_answers (hi.tx hr.inited).cap hfit seq count⟩

/-- Settles O22: both stage one byte and frame it. -/
theorem writeRespAndErrorAnswer : Obligations.WriteRespAndErrorAnswer := by
  intro seq code s hr hi ht
  have hcap := (hi.tx hr.inited).cap
  have hmax := (ok_bounds hr.cfgOk).1
  exact ⟨exec_answers_of_idle hr ht (writeResponse seq) rfl ⟨(), writeResponse_answers hcap hmax seq⟩,
    exec_answers_of_idle hr ht (errorResponse code seq) rfl ⟨(), errorResponse_answers hcap hmax code seq⟩⟩

/-- Settles O23: PING and PONG have the same rule, which stages nothing. -/
theorem pingAnswersEmptyPong : Obligations.PingAnswersEmptyPong := by
  intro seq payload s hr ht
  obtain ⟨t, hnext, ha⟩ := exec_answers_of_idle hr ht (pongResponse seq) (i := .pong seq) rfl ⟨(), pongResponse_answers s seq⟩
  have heq : exec (.ping seq payload) s = exec (.pong seq) s := rfl
  exact ⟨t, heq.trans hnext, hnext, ha⟩

/-- Settles O28: the request that the frame encodes is PING. -/
theorem dispatchedPingAnswersPong : Obligations.DispatchedPingAnswersPong := by
  intro s f hr ht hf hcrc hcmd
  obtain ⟨t, hnext, -, ha⟩ := pingAnswersEmptyPong f.seq f.payload s hr ht
  refine ⟨t, ?_, ha⟩
  rw [exec_dispatch_of_crc_eq hr ht hf hcrc, hcmd, requestInstr, decodeCommand_cmdPing hr.cfgOk]
  exact hnext

/-- Settles O25: the hazard check comes first. -/
theorem completionWhileSendingOverruns : Obligations.CompletionWhileSendingOverruns := by
  intro s hr ht
  have hd : exec .dispatch s = (dispatch s).outcome := whenRunning_of hr fun s => (dispatch s).outcome
  rw [hd, dispatch, requireIdle_sending ht]
  rfl

/-! ### Emission (R166 to R169) -/

/-- The Transmit Context with the same frame staged and its first `i` bytes sent: Idle once that is all of them (R167, D11). -/
def TxCtx.sent (t : TxCtx) (i : Nat) : TxCtx := ⟨if i = t.len then .idle else .sending, t.buf, t.len, i⟩

theorem TxCtx.sent_idx {t : TxCtx} (h : t.state = .sending) (hlt : t.idx < t.len) : t.sent t.idx = t := by
  rw [TxCtx.sent, if_neg (Nat.ne_of_lt hlt), ← h]

/-- `s` after emitting the bytes `bs`, with the Transmit Context `t`. -/
def State.emitted (s : State) (bs : List Byte) (t : TxCtx) : State :=
  { s with tx := t, trace := s.trace ++ bs.map (.emit s.emitter) }

theorem emitted_output (s : State) (bs : List Byte) (t : TxCtx) : (s.emitted bs t).output = s.output ++ bs := by
  have hmap : (bs.map (Obs.emit s.emitter)).filterMap Obs.emitted? = bs := by
    rw [List.filterMap_map]
    exact List.filterMap_some
  rw [State.output, State.emitted, List.filterMap_append, hmap]
  rfl

theorem exec_txslot_emits {s : State} {b : Byte} (hr : Running s) (hst : s.tx.state = .sending) (hlt : s.tx.idx < s.tx.len)
    (hb : Buf.cell? s.tx.buf s.tx.idx = some b) : exec .txslot s = .next (s.emitted [b] (s.tx.sent (s.tx.idx + 1))) := by
  rw [exec_txslot_of_running hr]
  rcases txSlot_cases s with ⟨b', -, -, hb', h⟩ | ⟨hnot, -⟩ | ⟨-, -, hnone, -⟩
  · rw [hb] at hb'
    cases hb'
    rw [h]
    rfl
  · exact absurd ⟨hst, hlt⟩ hnot
  · rw [hb] at hnone
    cases hnone

/-- Settles O18: under the invariant the index is below the length and its cell was written. -/
theorem txslotEmitsNextByte : Obligations.TxslotEmitsNextByte := by
  intro s hr hi hst
  have htx := hi.tx hr.inited
  have hlt := (htx.idx hst).2
  obtain ⟨b, hb⟩ := Option.isSome_iff_exists.mp (htx.written hst s.tx.idx hlt)
  exact ⟨b, hb, exec_txslot_emits hr hst hlt hb⟩

/-- Slots emit the bytes that stand next in the buffer, each once and in order, as long as the frame has them. -/
theorem slots_emit {s : State} {t : TxCtx} {i : Nat} {bs : List Byte} (hr : Running s) (ht : s.tx = t.sent i)
    (hfit : i + bs.length ≤ t.len) (hcells : ∀ j, j < bs.length → Buf.cell? t.buf (i + j) = bs[j]?) :
    slots bs.length s = .next (s.emitted bs (t.sent (i + bs.length))) := by
  induction bs generalizing s i with
  | nil =>
    rw [State.emitted, List.length_nil, Nat.add_zero, ← ht, List.map_nil, List.append_nil]
    rfl
  | cons b bs ih =>
    rw [List.length_cons] at hfit hcells
    have hst : s.tx.state = .sending := by rw [ht, TxCtx.sent, if_neg (by omega)]
    have hstep := exec_txslot_emits (b := b) hr hst (by rw [ht, TxCtx.sent]; simp only; omega)
      (by rw [ht]; exact hcells 0 (by omega))
    have hrest := ih (s := s.emitted [b] (s.tx.sent (s.tx.idx + 1))) (i := i + 1) ⟨hr.noFault, hr.cfgOk, hr.inited⟩
      (by rw [ht]; rfl) (by omega) fun j hj => by
        rw [show i + 1 + j = i + (j + 1) by omega, hcells (j + 1) (by omega), List.getElem?_cons_succ]
    rw [slots, List.length_cons, List.replicate_succ, execAll, hstep]
    refine hrest.trans ?_
    simp only [State.emitted, List.map_cons, List.map_nil, List.append_assoc, List.singleton_append, Nat.add_assoc,
      Nat.add_comm 1]

/-- Settles O20, by induction on the bytes still to go. -/
theorem stagedFrameGoesOutInOrder : Obligations.StagedFrameGoesOutInOrder := by
  intro s frame hr hst hidx hlen htwo hspan
  have hsent : s.tx = s.tx.sent 1 := by rw [← hidx, TxCtx.sent_idx hst (by omega)]
  have hslots : ∀ k, k + 1 ≤ frame.length →
      slots k s = .next (s.emitted ((frame.drop 1).take k) (s.tx.sent (1 + k))) := fun k hk => by
    have htake : ((frame.drop 1).take k).length = k := by rw [List.length_take, List.length_drop]; omega
    have h := slots_emit (bs := (frame.drop 1).take k) hr hsent (by rw [htake]; omega) fun j hj => by
      rw [htake] at hj
      rw [List.getElem?_take_of_lt hj, List.getElem?_drop, ← (span?_some hspan).2 (1 + j) (by omega), Nat.zero_add]
    rwa [htake] at h
  refine ⟨fun k hk => ⟨_, hslots k (by omega), emitted_output _ _ _, ?_⟩, _, hslots (frame.length - 1) (by omega), ?_, ?_, ?_⟩
  · have hne : ¬(1 + k = s.tx.len) := by omega
    simp [State.isBusy, State.emitted, TxCtx.sent, hne]
  · rw [emitted_output, List.take_of_length_le (by rw [List.length_drop])]
  · have heq : 1 + (frame.length - 1) = s.tx.len := by omega
    simp [State.isBusy, State.emitted, TxCtx.sent, heq]
  · have heq : 1 + (frame.length - 1) = s.tx.len := by omega
    rw [State.emitted, TxCtx.sent, if_pos heq, heq]

end Sys2Proof.Machine

/-! PROOFS. The RX that completes a frame (R108, R110, R120), what raises a fault (R203) and what writes the busy flag (R29). -/

namespace Sys2Proof.Machine

open Sys2Proof

/-! ### The dispatch's end and the return to Idle -/

theorem Running.withRx {s : State} (h : Running s) (r : RxCtx) : Running (s.withRx r) := ⟨h.noFault, h.cfgOk, h.inited⟩

theorem exec_dispatch_of_running {s : State} (hr : Running s) : exec .dispatch s = (dispatch s).outcome :=
  whenRunning_of hr fun s => (dispatch s).outcome

theorem dispatch_of_sending {s : State} (h : s.tx.state = .sending) : dispatch s = .halt (s.raised .txOverrun) := by
  rw [dispatch, requireIdle_sending h]

/-- A dispatch that goes on has raised no fault, and one that halts has. -/
theorem dispatch_fault {s : State} (hr : Running s) :
    (dispatch s).Ends (fun _ t => t.fault = none) (fun t => t.fault ≠ none) True := by
  cases hst : s.tx.state with
  | sending => rw [dispatch_of_sending hst]; exact nofun
  | idle =>
    refine (dispatch_ends (hr.room_zero (.inl trivial)) hst (.inl trivial)).mono ?_ ?_
    · rintro _ t ⟨f, -, hresp⟩
      exact hresp.fault.trans hr.noFault
    · rintro t ⟨hfault, -⟩
      exact ne_of_eq_of_ne hfault nofun

/-- The return to Idle after a dispatch is `thenIdle` of its outcome. -/
theorem dispatch_rxGoto_outcome {s : State} (hr : Running s) :
    ((dispatch s).andThen fun _ t => rxGoto .idle t).outcome = thenIdle (exec .dispatch s) := by
  have hfault := dispatch_fault hr
  rw [exec_dispatch_of_running hr]
  cases hd : dispatch s with
  | stop f => rfl
  | done a t =>
    rw [hd] at hfault
    simp only [andThen_done, rxGoto, outcome_done, thenIdle, if_pos (show t.fault = none from hfault)]
  | halt t =>
    rw [hd] at hfault
    simp only [andThen_halt, outcome_halt, thenIdle, if_neg (show t.fault ≠ none from hfault)]

/-- Under the invariant a frame's last byte answers what the dispatch of the completed frame answers, and Idle. -/
theorem exec_rx_thenIdle {s : State} (hr : Running s) (hi : s.Inv) (h : s.rx.state = .crcHigh) (b : Byte) :
    exec (.rx b) s = thenIdle (exec .dispatch (s.withRx (s.rx.next s.cfg b))) := by
  rw [exec_rx_of_crcHigh hr hi h, dispatch_rxGoto_outcome (hr.withRx _)]

theorem next_of_crcHigh {p : Params} {r : RxCtx} (h : r.state = .crcHigh) (b : Byte) :
    r.next p b = { r with buf := r.buf.set (6 + r.len.toNat) (some b) } := by
  cases r
  cases h
  rfl

/-- Settles O14: the return to Idle is `thenIdle`, since a dispatch halts exactly when it raises a fault. -/
theorem rxCrcHighDispatches : Obligations.RxCrcHighDispatches := by
  intro b s hr hi h
  rw [exec_rx_thenIdle hr hi h, next_of_crcHigh h]
  rfl

/-! ### No stops but that of a faulted block (R110) -/

/-- A buffer whose cells up to the frame's end were written holds a completed frame. -/
theorem frameIn_of_written {buf : Buf} {L : Nat} (h : Buf.Written buf (7 + L)) : (frameIn buf L).isSome = true := by
  have hcell : ∀ i, i < 7 + L → ∃ v, Buf.cell? buf i = some v := fun i hi => Option.isSome_iff_exists.mp (h i hi)
  obtain ⟨covered, hcovered⟩ := span?_isSome (b := buf) (lo := 0) (n := 5 + L) fun i hi => h _ (by omega)
  obtain ⟨payload, hpayload⟩ := span?_isSome (b := buf) (lo := 5) (n := L) fun i hi => h _ (by omega)
  obtain ⟨cmd, hcmd⟩ := hcell 3 (by omega)
  obtain ⟨seq, hseq⟩ := hcell 4 (by omega)
  obtain ⟨lo, hlo⟩ := hcell (5 + L) (by omega)
  obtain ⟨hi, hhi⟩ := hcell (6 + L) (by omega)
  simp only [frameIn, hcovered, hcmd, hseq, hpayload, hlo, hhi, Option.isSome_some]

/-- Under the invariant the dispatch of the frame that a last byte completes does not stop. -/
theorem dispatch_of_crcHigh_ne_stop {s : State} (hr : Running s) (hi : s.Inv) (h : s.rx.state = .crcHigh) (b : Byte) (f : Fault) :
    dispatch (s.withRx (s.rx.next s.cfg b)) ≠ .stop f := by
  intro hstop
  have hrx := hi.rx hr.inited
  have hw := Buf.Written.set hrx.written hrx.extent_lt b
  cases hst : s.tx.state with
  | sending =>
    have hd := dispatch_of_sending (s := s.withRx (s.rx.next s.cfg b)) hst
    rw [hd] at hstop
    cases hstop
  | idle =>
    have hframe : (frameIn (s.rx.next s.cfg b).buf (s.rx.next s.cfg b).len.toNat).isSome = true := by
      rw [next_of_crcHigh h]
      simp only [rxExtent, h] at hw
      exact frameIn_of_written (L := s.rx.len.toNat) (hw.mono (by omega))
    have hends := dispatch_ends (S := False) (s := s.withRx (s.rx.next s.cfg b))
      ((hr.withRx _).room_zero (.inr (hi.tx hr.inited).cap)) hst (.inr hframe)
    rw [hstop] at hends
    exact hends

theorem whenReady_fault {s : State} {f : Fault} {k : State → Host.Outcome State Fault Refusal}
    (h : whenReady s k = .fault f) : (∃ kind, f = .stuck kind) ∨ s.fault = none ∧ s.cfg.ok = true ∧ k s = .fault f := by
  cases hf : s.fault with
  | some kind => rw [whenReady_faulted hf] at h; cases h; exact .inl ⟨kind, rfl⟩
  | none =>
    cases hc : s.cfg.ok with
    | false => rw [whenReady_badConfiguration hf hc] at h; cases h
    | true => rw [whenReady_of hf hc] at h; exact .inr ⟨rfl, rfl, h⟩

/-- A guarded operation stops because the block is faulted, or because its rule stops on a running block. -/
theorem whenRunning_fault {s : State} {f : Fault} {k : State → Host.Outcome State Fault Refusal}
    (h : whenRunning s k = .fault f) : (∃ kind, f = .stuck kind) ∨ Running s ∧ k s = .fault f := by
  refine (whenReady_fault h).imp_right fun ⟨hf, hc, hk⟩ => ?_
  cases hi : s.init with
  | false => rw [hi] at hk; cases hk
  | true => rw [hi] at hk; exact ⟨⟨hf, hc, hi⟩, hk⟩

theorem exec_rx_ne_fault {s : State} (hr : Running s) (hi : s.Inv) (b : Byte) (f : Fault) :
    exec (.rx b) s ≠ .fault f := by
  intro h
  by_cases hst : s.rx.state = .crcHigh
  · rw [exec_rx_of_crcHigh hr hi hst] at h
    cases hd : dispatch (s.withRx (s.rx.next s.cfg b)) with
    | done a t => rw [hd] at h; cases h
    | halt t => rw [hd] at h; cases h
    | stop g => exact dispatch_of_crcHigh_ne_stop hr hi hst b g hd
  · rw [exec_rx_of_incomplete hr hi hst] at h
    cases h

theorem txSlot_ne_stop {s : State} (hr : Running s) (hi : s.Inv) (f : Fault) : txSlot s ≠ .stop f := by
  intro hstop
  rcases txSlot_cases s with ⟨b, -, -, -, h⟩ | ⟨-, h⟩ | ⟨hst, hlt, hnone, -⟩
  · rw [h] at hstop; cases hstop
  · rw [h] at hstop; cases hstop
  · have hw := (hi.tx hr.inited).written hst s.tx.idx hlt
    rw [hnone] at hw
    cases hw

theorem exec_txslot_ne_fault {s : State} (hr : Running s) (hi : s.Inv) (f : Fault) : exec .txslot s ≠ .fault f := by
  intro h
  rw [exec_txslot_of_running hr] at h
  cases ht : txSlot s with
  | stop g => exact txSlot_ne_stop hr hi g ht
  | done a t => rw [ht] at h; cases h
  | halt t => rw [ht] at h; cases h

/-- Settles O49: a running entry point goes on or halts, and one that does not run is stuck or refused. -/
theorem entryPointsNeverMisuseBuffers : Obligations.EntryPointsNeverMisuseBuffers := by
  intro i s f hi hentry h
  cases i with
  | init e => exact (whenReady_fault (k := fun s => .next (initBlock e s)) h).resolve_right fun ⟨_, _, hk⟩ => nomatch hk
  | rx b =>
    refine (whenRunning_fault (k := fun s => (receive b s).outcome) h).resolve_right fun ⟨hr, _⟩ => ?_
    exact exec_rx_ne_fault hr hi b f h
  | txslot =>
    refine (whenRunning_fault (k := fun s => (txSlot s).outcome) h).resolve_right fun ⟨hr, _⟩ => ?_
    exact exec_txslot_ne_fault hr hi f h
  | busy => exact (whenRunning_fault (k := fun s => .next (s.observe _)) h).resolve_right fun ⟨_, hk⟩ => nomatch hk
  | version => exact (whenRunning_fault (k := fun s => .next (s.observe _)) h).resolve_right fun ⟨_, hk⟩ => nomatch hk
  | _ => cases hentry

/-! ### Which events raise a fault, and which write the busy flag (R29, R203) -/

/-- Everything an RX that completes a frame can leave: the state of the dispatch, in Idle if no fault was raised. -/
theorem exec_rx_crcHigh_next {b : Byte} {s t : State} (h : exec (.rx b) s = .next t) (hst : s.rx.state = .crcHigh) :
    Running s ∧ ((∃ u, dispatch (s.withRx (s.rx.next s.cfg b)) = .done () u ∧ t = u.withRx { u.rx with state := .idle }) ∨
      dispatch (s.withRx (s.rx.next s.cfg b)) = .halt t) := by
  obtain ⟨hr, h⟩ := whenRunning_next (k := fun s => (receive b s).outcome) h
  refine ⟨hr, ?_⟩
  rcases receive_crcHigh_cases b s hst with hc | ⟨-, hc⟩ <;> rw [hc] at h
  · cases hd : dispatch (s.withRx (s.rx.next s.cfg b)) with
    | done a u => rw [hd] at h; cases h; exact .inl ⟨u, rfl, rfl⟩
    | halt u => rw [hd] at h; cases h; exact .inr rfl
    | stop f => rw [hd] at h; cases h
  · cases h

/-- An operation whose rule raises no fault leaves a block without one. -/
theorem noFault_of_whenRunning {s t : State} (r : State → Res Unit) (hr : (r s).All fun u => u.fault = s.fault)
    (h : whenRunning s (fun s => (r s).outcome) = .next t) : t.fault = none :=
  (all_of_whenRunning r hr h).trans (whenRunning_next h).1.noFault

theorem txSlot_fault (s : State) : (txSlot s).All fun u => u.fault = s.fault := by
  rcases txSlot_cases s with ⟨b, -, -, -, h⟩ | ⟨-, h⟩ | ⟨-, -, -, h⟩ <;> rw [h] <;> trivial

/-- An entry point that completes no frame raises no fault. -/
theorem exec_fault_of_entry {i : Instr} {s t : State} (hentry : i.isEntry = true) (h : exec i s = .next t)
    (hrx : ∀ b, i = .rx b → s.rx.state ≠ .crcHigh) : t.fault = none := by
  cases i with
  | init e => rw [exec_init_next h]; exact (whenReady_next (k := fun s => .next (initBlock e s)) h).1
  | rx b =>
    rw [incompleteRxFrame b s t (hrx b rfl) h]
    exact (whenRunning_next (k := fun s => (receive b s).outcome) h).1.noFault
  | txslot => exact noFault_of_whenRunning txSlot (txSlot_fault s) h
  | busy => exact noFault_of_whenRunning (fun s => .done () (s.observe (.busy s.isBusy))) rfl h
  | version => exact noFault_of_whenRunning (fun s => .done () (s.observe (.version s.cfg.version))) rfl h
  | _ => cases hentry

/-- Settles O53: a dispatch while Sending overruns before it looks at the frame, and one while Idle halts only as `DispatchFault` says. -/
theorem onlyCompletedFramesRaiseFaults : Obligations.OnlyCompletedFramesRaiseFaults := by
  intro i s t k hentry h hk
  by_cases hcomplete : ∃ b, i = .rx b ∧ s.rx.state = .crcHigh
  case neg =>
    rw [exec_fault_of_entry hentry h fun b hb hst => hcomplete ⟨b, hb, hst⟩] at hk
    cases hk
  obtain ⟨b, rfl, hst⟩ := hcomplete
  refine ⟨b, rfl, hst, ?_⟩
  obtain ⟨hr, hcases⟩ := exec_rx_crcHigh_next h hst
  have hr' := hr.withRx (s.rx.next s.cfg b)
  have hhalt : dispatch (s.withRx (s.rx.next s.cfg b)) = .halt t := by
    refine hcases.resolve_left ?_
    rintro ⟨u, hd, rfl⟩
    have hnone := dispatch_fault hr'
    rw [hd] at hnone
    rw [withRx_fault, show u.fault = none from hnone] at hk
    cases hk
  cases htx : s.tx.state with
  | sending =>
    have hd := dispatch_of_sending (s := s.withRx (s.rx.next s.cfg b)) htx
    rw [hd] at hhalt
    cases hhalt
    cases hk
    exact ⟨⟨fun _ => rfl, fun _ => rfl⟩, nofun⟩
  | idle =>
    have hends := dispatch_ends (S := True) (hr'.room_zero (.inl trivial)) htx (.inl trivial)
    rw [hhalt] at hends
    obtain ⟨hunmapped, f, hf, hcrc, hcmd⟩ := hends
    obtain rfl : k = .memUnmapped := Option.some.inj (hk.symm.trans hunmapped)
    rw [next_of_crcHigh hst] at hf
    exact ⟨⟨nofun, nofun⟩, fun _ => ⟨f, hf, hcrc, hcmd⟩⟩

/-- A slot changes the busy flag only where no byte is left to follow, and clears it (R167, R168). -/
theorem exec_txslot_busy {s t : State} (h : exec .txslot s = .next t) (hne : t.isBusy ≠ s.isBusy) :
    s.tx.len ≤ s.tx.idx + 1 ∧ t.isBusy = false := by
  obtain ⟨-, h⟩ := whenRunning_next (k := fun s => (txSlot s).outcome) h
  rcases txSlot_cases s with ⟨b, hst, hlt, -, hc⟩ | ⟨hnot, hc⟩ | ⟨-, -, -, hc⟩ <;> rw [hc] at h <;> cases h
  · by_cases hlast : s.tx.idx + 1 = s.tx.len
    · exact ⟨by omega, by simp [State.isBusy, hlast]⟩
    · exact absurd (by simp [State.isBusy, hlast, hst]) hne
  · refine ⟨?_, by simp [State.isBusy]⟩
    by_contra hlen
    have hst : s.tx.state ≠ .sending := fun hst => hnot ⟨hst, by omega⟩
    exact hne (by simp [State.isBusy, hst])

/-- Settles O8: before a frame's last byte RX leaves the Transmit Context alone, and with it a Sending transmitter overruns. -/
theorem busyFlagWriters : Obligations.BusyFlagWriters := by
  intro i s t hentry h hne
  have hsame : t.tx = s.tx → False := fun htx => hne (by rw [State.isBusy, State.isBusy, htx])
  cases i with
  | init e => rw [exec_init_next h]; exact .inl ⟨e, rfl, rfl⟩
  | rx b =>
    by_cases hst : s.rx.state = .crcHigh
    · refine .inr (.inl ⟨b, rfl, hst, ?_⟩)
      cases htx : s.tx.state with
      | idle => simpa [State.isBusy, htx] using hne
      | sending =>
        have hd := dispatch_of_sending (s := s.withRx (s.rx.next s.cfg b)) htx
        obtain ⟨-, ⟨u, hdone, -⟩ | hhalt⟩ := exec_rx_crcHigh_next h hst
        · rw [hd] at hdone; cases hdone
        · rw [hd] at hhalt; cases hhalt; exact (hsame rfl).elim
    · exact (hsame (by rw [incompleteRxFrame b s t hst h])).elim
  | txslot => exact .inr (.inr ⟨rfl, exec_txslot_busy h hne⟩)
  | busy =>
    exact (hsame (all_of_whenRunning (P := fun u => u.tx = s.tx) (fun s => .done () (s.observe (.busy s.isBusy))) rfl h)).elim
  | version =>
    exact (hsame (all_of_whenRunning (P := fun u => u.tx = s.tx) (fun s => .done () (s.observe (.version s.cfg.version))) rfl h)).elim
  | _ => cases hentry

/-! ### One response per completed frame (R128) -/

theorem Answers.output {s t : State} {c : RespCode} {seq : Byte} {payload : List Byte} (h : Answers s t c seq payload) :
    t.output = s.output ++ [s.cfg.startMarker] := by
  obtain ⟨buf, rfl, -⟩ := h
  simp [State.output, Obs.emitted?]

/-- Settles O29: no fault means that the dispatch went on, and then it has sent the response of `Responds`. -/
theorem oneResponsePerCompletedFrame : Obligations.OneResponsePerCompletedFrame := by
  intro s t hi h hnone
  obtain ⟨hr, h⟩ := whenRunning_next (k := fun s => (dispatch s).outcome) h
  have hfault := dispatch_fault hr
  cases hd : dispatch s with
  | stop f => rw [hd] at h; cases h
  | halt u => rw [hd] at h hfault; cases h; exact absurd hnone hfault
  | done a u =>
    rw [hd] at h
    cases h
    have hidle : s.tx.state = .idle := by
      cases htx : s.tx.state with
      | idle => rfl
      | sending => rw [dispatch_of_sending htx] at hd; cases hd
    have hends := dispatch_ends (S := True) (hr.room_zero (.inl trivial)) hidle (.inl trivial)
    rw [hd] at hends
    obtain ⟨f, hf, v, c, payload, hw, ha, hfit⟩ := hends
    have hout := ha.output
    obtain ⟨buf, rfl, hspan⟩ := ha
    rw [hw.cfg] at hspan
    exact ⟨f, c, payload, hf, hfit, rfl, rfl, rfl, hspan, hout.trans (by rw [hw.output, hw.cfg])⟩

/-! ### RX and TXSLOT (R114, R206) -/

/-- Under the invariant a slot writes the Transmit Context and the trace, and takes neither from the Receive Context. -/
theorem exec_txslot_withRx {s : State} (hr : Running s) (hi : s.Inv) :
    ∃ bs x, ∀ r, exec .txslot (s.withRx r) = .next ((s.withRx r).emitted bs x) := by
  cases hst : s.tx.state with
  | idle =>
    refine ⟨[], s.tx, fun r => ?_⟩
    rw [(txslotIdleDoesNothing (s.withRx r) 0 (hr.withRx r) hst).1, State.emitted, List.map_nil, List.append_nil]
    rfl
  | sending =>
    have htx := hi.tx hr.inited
    have hlt := (htx.idx hst).2
    obtain ⟨b, hb⟩ := Option.isSome_iff_exists.mp (htx.written hst s.tx.idx hlt)
    exact ⟨[b], s.tx.sent (s.tx.idx + 1), fun r => exec_txslot_emits (s := s.withRx r) (hr.withRx r) hst hlt hb⟩

/-- Settles O16: RX reads and writes the Receive Context only, and a slot leaves it alone. -/
theorem rxAndTxslotCommute : Obligations.RxAndTxslotCommute := by
  intro b s hr hi hst
  obtain ⟨bs, x, hslot⟩ := exec_txslot_withRx hr hi
  have hslot_self := hslot s.rx
  rw [withRx_self] at hslot_self
  have hrx := exec_rx_of_incomplete hr hi hst b
  have hrx' := exec_rx_of_incomplete (s := s.emitted bs x) ⟨hr.noFault, hr.cfgOk, hr.inited⟩ (exec_inv hi hslot_self) hst b
  refine ⟨(s.withRx (s.rx.next s.cfg b)).emitted bs x, ?_, ?_⟩
  · simp only [execAll, hrx, hslot]
  · simp only [execAll, hslot_self, hrx']
    rfl

end Sys2Proof.Machine

/-! PROOFS. A frame delivered byte by byte (R111, R112): each byte is the next cell of the receive buffer. -/

namespace Sys2Proof.Machine

open Sys2Proof

/-! ### Runs -/

theorem execAll_append {is js : List Instr} {s t : State} (h : execAll is s = .next t) : execAll (is ++ js) s = execAll js t := by
  induction is generalizing s with
  | nil => cases h; rfl
  | cons i is ih =>
    rw [execAll] at h
    rw [List.cons_append, execAll]
    cases hi : exec i s with
    | next u => rw [hi] at h; exact ih h
    | fault f => rw [hi] at h; cases h
    | refused r => rw [hi] at h; cases h

theorem execAll_singleton (i : Instr) (s : State) : execAll [i] s = exec i s := by
  rw [execAll]
  cases exec i s <;> rfl

theorem rxAll_append_singleton {bs : List Byte} {b : Byte} {s t : State} (h : rxAll bs s = .next t) :
    rxAll (bs ++ [b]) s = exec (.rx b) t := by
  rw [rxAll, List.map_append, execAll_append h]
  exact execAll_singleton _ t

/-! ### Spans of a buffer -/

/-- One more cell written makes the span one byte longer. -/
theorem span?_set_next {buf : Buf} {bs : List Byte} (h : Buf.span? buf 0 bs.length = some bs) (hlt : bs.length < buf.length)
    (b : Byte) : Buf.span? (buf.set bs.length (some b)) 0 (bs ++ [b]).length = some (bs ++ [b]) := by
  refine span?_of_cells fun i hi => ?_
  rw [Nat.zero_add]
  rcases Nat.lt_succ_iff_lt_or_eq.mp (List.length_append ▸ hi) with hlt' | rfl
  · have hcell := (span?_some h).2 i hlt'
    rw [Nat.zero_add] at hcell
    rw [cell?_set_other b (by omega), hcell, List.getElem?_append_left hlt']
  · rw [cell?_set_same b hlt, List.getElem?_concat_length]

theorem span?_sub {buf : Buf} {n lo k : Nat} {bs : List Byte} (h : Buf.span? buf 0 n = some bs) (hk : lo + k ≤ n) :
    Buf.span? buf lo k = some ((bs.drop lo).take k) := by
  obtain ⟨hlen, hcells⟩ := span?_some h
  have hsub : ((bs.drop lo).take k).length = k := by rw [List.length_take, List.length_drop]; omega
  have hspan := span?_of_cells (b := buf) (lo := lo) (bs := (bs.drop lo).take k) fun i hi => by
    rw [hsub] at hi
    have hcell := hcells (lo + i) (by omega)
    rw [Nat.zero_add] at hcell
    rw [hcell, List.getElem?_take_of_lt hi, List.getElem?_drop]
  rwa [hsub] at hspan

/-- A buffer that holds a frame's bytes holds the completed frame with its fields. -/
theorem frameIn_of_span {buf : Buf} {p : Params} {cmd seq lo hi : Byte} {payload : List Byte}
    (h : Buf.span? buf 0 (7 + payload.length) = some (frameBody p cmd seq payload ++ [lo, hi])) :
    frameIn buf payload.length = some ⟨cmd, seq, payload, frameBody p cmd seq payload, le16 lo hi⟩ := by
  have hcell : ∀ i, i < 7 + payload.length → Buf.cell? buf i = (frameBody p cmd seq payload ++ [lo, hi])[i]? := fun i hi => by
    rw [← (span?_some h).2 i hi, Nat.zero_add]
  have hbody : Buf.span? buf 0 (5 + payload.length) = some (frameBody p cmd seq payload) := by
    rw [span?_sub h (by omega), List.drop_zero, List.take_left' (frameBody_length p cmd seq payload)]
  have hpayload : Buf.span? buf 5 payload.length = some payload := by
    rw [span?_sub h (by omega)]
    exact congrArg some List.take_left
  have hlo : Buf.cell? buf (5 + payload.length) = some lo := by
    rw [hcell _ (by omega), List.getElem?_append_right (by simp), frameBody_length, Nat.sub_self]
    rfl
  have hhi : Buf.cell? buf (6 + payload.length) = some hi := by
    rw [hcell _ (by omega), List.getElem?_append_right (by simp), frameBody_length,
      show 6 + payload.length - (5 + payload.length) = 1 by omega]
    rfl
  have hcmd : Buf.cell? buf 3 = some cmd := hcell 3 (by omega)
  have hseq : Buf.cell? buf 4 = some seq := hcell 4 (by omega)
  simp only [frameIn, hbody, hcmd, hseq, hpayload, hlo, hhi]

/-! ### Delivering bytes -/

/-- Delivering `bs` leaves the Receive Context `r`, which holds them, and changes nothing else. -/
structure Delivered (s : State) (bs : List Byte) (r : RxCtx) : Prop where
  run  : rxAll bs s = .next (s.withRx r)
  inv  : RxInv s.cfg r
  size : rxExtent r = bs.length
  held : Buf.span? r.buf 0 bs.length = some bs

section

variable {s : State} (hr : Running s) (hi : s.Inv)
include hr hi

omit hr in
theorem inv_withRx {r : RxCtx} (h : RxInv s.cfg r) : (s.withRx r).Inv := ⟨hi.mem, fun _ => h, hi.tx⟩

theorem delivered_marker (h : s.rx.state = .idle) :
    ∃ r, Delivered s [s.cfg.startMarker] r ∧ r.state = .lenLow := by
  have hctx : s.rx.next s.cfg s.cfg.startMarker =
      ⟨.lenLow, (blankBuf s.cfg.rxCap).set 0 (some s.cfg.startMarker), s.rx.len, s.rx.idx⟩ := by
    simp only [RxCtx.next, h, if_pos]
  refine ⟨s.rx.next s.cfg s.cfg.startMarker, ⟨?_, (hi.rx hr.inited).next _, ?_, ?_⟩, ?_⟩
  · rw [rxAll, List.map_singleton, execAll_singleton, exec_rx_of_incomplete hr hi (by simp [h])]
  · rw [hctx]; rfl
  · rw [hctx]
    exact span?_set_next (bs := []) rfl (by simp [Params.rxCap]) _
  · rw [hctx]

/-- The byte after those delivered goes to the next cell. -/
theorem Delivered.next {bs : List Byte} {r : RxCtx} (h : Delivered s bs r) (hidle : r.state ≠ .idle)
    (hlast : r.state ≠ .crcHigh) (b : Byte) (hsize : rxExtent (r.next s.cfg b) = rxExtent r + 1) :
    Delivered s (bs ++ [b]) (r.next s.cfg b) := by
  obtain ⟨hrun, hinv, hext, hheld⟩ := h
  refine ⟨?_, hinv.next b, by rw [hsize, hext, List.length_append]; rfl, ?_⟩
  · rw [rxAll_append_singleton hrun, exec_rx_of_incomplete (hr.withRx r) (inv_withRx hi hinv) hlast]
    rfl
  · rw [RxCtx.next_buf hidle, hext]
    exact span?_set_next hheld (hext ▸ hinv.extent_lt) b

/-- The header's five bytes: the length is read and checked, and an empty payload is skipped (R101 to R105). -/
theorem delivered_header (h : s.rx.state = .idle) {L : Nat} (hL : L ≤ s.cfg.maxPayload) (cmd seq : Byte) :
    ∃ r, Delivered s [s.cfg.startMarker, lo8 L, hi8 L, cmd, seq] r ∧ r.len.toNat = L ∧ r.idx = 0 ∧
      r.state = if L = 0 then .crcLow else .payload := by
  have hlen : (le16 (lo8 L) (hi8 L)).toNat = L := le16_lo8_hi8 (by have := (ok_bounds hr.cfgOk).2.1; omega)
  obtain ⟨r1, h1, hst1⟩ := delivered_marker hr hi h
  obtain ⟨r2, h2, hst2, hlen2⟩ : ∃ r, Delivered s [s.cfg.startMarker, lo8 L] r ∧ r.state = .lenHigh ∧
      r.len = (lo8 L).setWidth 16 :=
    ⟨_, h1.next hr hi (by simp [hst1]) (by simp [hst1]) (lo8 L) (by simp [RxCtx.next, rxExtent, hst1]),
      by simp [RxCtx.next, hst1], by simp [RxCtx.next, hst1]⟩
  have hfits : ¬s.cfg.maxPayload < (r2.len ||| ((hi8 L).setWidth 16 <<< 8)).toNat := by
    rw [hlen2, ← le16, hlen]
    omega
  obtain ⟨r3, h3, hst3, hlen3⟩ : ∃ r, Delivered s [s.cfg.startMarker, lo8 L, hi8 L] r ∧ r.state = .command ∧
      r.len = le16 (lo8 L) (hi8 L) :=
    ⟨_, h2.next hr hi (by simp [hst2]) (by simp [hst2]) (hi8 L) (by simp only [RxCtx.next, rxExtent, hst2, if_neg hfits]),
      by simp only [RxCtx.next, hst2, if_neg hfits], by simp only [RxCtx.next, hst2, hlen2, le16]⟩
  obtain ⟨r4, h4, hst4, hlen4⟩ : ∃ r, Delivered s [s.cfg.startMarker, lo8 L, hi8 L, cmd] r ∧ r.state = .sequence ∧
      r.len = r3.len :=
    ⟨_, h3.next hr hi (by simp [hst3]) (by simp [hst3]) cmd (by simp [RxCtx.next, rxExtent, hst3]),
      by simp [RxCtx.next, hst3], by simp [RxCtx.next, hst3]⟩
  have hzero : r4.len = 0 ↔ L = 0 := by
    rw [hlen4, hlen3, BitVec.toNat_eq, hlen]
    rfl
  have hstate : (r4.next s.cfg seq).state = if L = 0 then .crcLow else .payload := by
    simp only [RxCtx.next, hst4, hzero]
  have hlen5 : (r4.next s.cfg seq).len.toNat = L := by
    simp only [RxCtx.next, hst4, hlen4, hlen3, hlen]
  have hidx : (r4.next s.cfg seq).idx = 0 := by
    simp only [RxCtx.next, hst4]
  refine ⟨_, h4.next hr hi (by simp [hst4]) (by simp [hst4]) seq ?_, hlen5, hidx, hstate⟩
  rw [rxExtent, hstate, hlen5, hidx]
  split_ifs with hL0 <;> simp [rxExtent, hst4, hL0]

/-- The payload's bytes, whatever they are: exactly `rx.len` of them are taken (R106). -/
theorem delivered_payload {header taken left : List Byte} {r : RxCtx}
    (h : Delivered s (header ++ taken) r) (hlen : r.len.toNat = taken.length + left.length)
    (hidx : r.idx.toNat = taken.length) (hst : r.state = if left = [] then .crcLow else .payload) :
    ∃ r', Delivered s (header ++ taken ++ left) r' ∧ r'.state = .crcLow ∧ r'.len = r.len := by
  induction left generalizing taken r with
  | nil => exact ⟨r, by rwa [List.append_nil], hst, rfl⟩
  | cons b left ih =>
    rw [if_neg (List.cons_ne_nil b left)] at hst
    rw [List.length_cons] at hlen
    have hlt : r.idx.toNat < r.len.toNat := by omega
    have hend : r.idx + 1 = r.len ↔ left = [] := by
      rw [half_succ_eq_iff hlt, ← List.length_eq_zero_iff]
      omega
    have hidx' : (r.idx + 1).toNat = taken.length + 1 := by bv_omega
    have hnext : r.next s.cfg b =
        ⟨if left = [] then .crcLow else .payload, r.buf.set (5 + r.idx.toNat) (some b), r.len, r.idx + 1⟩ := by
      simp only [RxCtx.next, hst, hend]
    have hdel := h.next hr hi (by simp [hst]) (by simp [hst]) b (by
      rw [hnext]
      split_ifs with hleft
      · subst hleft
        rw [List.length_nil] at hlen
        simp only [rxExtent, hst]
        omega
      · simp only [rxExtent, hst, hidx']
        omega)
    rw [List.append_assoc] at hdel
    obtain ⟨r', hr', hst', hlen'⟩ := ih hdel (by rw [hnext, List.length_append]; simp only [List.length_singleton]; omega)
      (by rw [hnext, List.length_append]; exact hidx') (by rw [hnext])
    refine ⟨r', ?_, hst', by rw [hlen', hnext]⟩
    rwa [← List.append_assoc, List.append_assoc (header ++ taken), List.singleton_append] at hr'

/-- A frame's bytes up to its last: the receiver is in CrcHigh and holds them (R111). -/
theorem delivered_frame (h : s.rx.state = .idle) (cmd seq lo : Byte) {payload : List Byte}
    (hfit : payload.length ≤ s.cfg.maxPayload) :
    ∃ r, Delivered s (frameBody s.cfg cmd seq payload ++ [lo]) r ∧ r.state = .crcHigh ∧ r.len.toNat = payload.length := by
  obtain ⟨r0, h0, hlen0, hidx0, hst0⟩ := delivered_header hr hi h hfit cmd seq
  obtain ⟨r1, h1, hst1, hlen1⟩ := delivered_payload hr hi (taken := []) (left := payload) (by rwa [List.append_nil])
    (by rw [hlen0, List.length_nil, Nat.zero_add]) (by rw [hidx0]; rfl) (by rw [hst0]; simp only [List.length_eq_zero_iff])
  exact ⟨_, h1.next hr hi (by simp [hst1]) (by simp [hst1]) lo (by simp [RxCtx.next, rxExtent, hst1]; omega),
    by simp only [RxCtx.next, hst1], by simp only [RxCtx.next, hst1, hlen1, hlen0]⟩

end

/-- Settles O15: the bytes before the last only fill the buffer, and the last one dispatches the frame that stands there. -/
theorem deliveredFrameRunsItsRequest : Obligations.DeliveredFrameRunsItsRequest := by
  intro s cmd seq lo hi payload hr hinv hidle htx hfit
  obtain ⟨r, ⟨hrun, hrinv, hsize, hheld⟩, hst, hlen⟩ := delivered_frame hr hinv hidle cmd seq lo hfit
  have hframe : frameIn (r.next s.cfg hi).buf (r.next s.cfg hi).len.toNat =
      some ⟨cmd, seq, payload, frameBody s.cfg cmd seq payload, le16 lo hi⟩ := by
    have hspan := span?_set_next hheld (hsize ▸ hrinv.extent_lt) hi
    rw [← hsize, ← RxCtx.next_buf (by simp [hst]), List.append_assoc] at hspan
    have hlen' : (r.next s.cfg hi).len.toNat = payload.length := by rw [next_of_crcHigh hst]; exact hlen
    rw [hlen']
    refine frameIn_of_span (p := s.cfg) ?_
    rwa [List.length_append, frameBody_length, show 5 + payload.length + ([lo] ++ [hi]).length = 7 + payload.length from by
      simp; omega] at hspan
  have hlast : rxAll (frameBody s.cfg cmd seq payload ++ [lo, hi]) s =
      thenIdle (exec .dispatch (s.withRx (r.next s.cfg hi))) := by
    rw [show [lo, hi] = [lo] ++ [hi] from rfl, ← List.append_assoc, rxAll_append_singleton hrun]
    exact exec_rx_thenIdle (hr.withRx r) (inv_withRx hinv hrinv) hst hi
  refine ⟨r, r.next s.cfg hi, hrun, hst, hframe, fun hcrc => ?_, fun hcrc => ?_⟩ <;> rw [hlast]
  · rw [exec_dispatch_of_crc_eq (hr.withRx (r.next s.cfg hi)) htx hframe hcrc.symm]
    rfl
  · rw [exec_dispatch_of_crc_ne (hr.withRx (r.next s.cfg hi)) htx hframe (Ne.symm hcrc)]
    rfl

end Sys2Proof.Machine

/-! PROOFS. READ, READ.FULL and READ.BIT (R137 to R143): the accesses made, the bytes staged and the answer. -/

namespace Sys2Proof.Machine

open Sys2Proof

/-! ### Reads at ascending addresses -/

theorem Res.andThen_assoc {α β γ : Type} (r : Res α) (k : α → State → Res β) (l : β → State → Res γ) :
    (r.andThen k).andThen l = r.andThen fun a t => (k a t).andThen l := by
  cases r <;> rfl

theorem targetTurn_eq (s : State) :
    targetTurn s = { s with mem := storeAll s.mem (s.target.headD []), target := s.target.tail } := by
  unfold targetTurn
  split
  · rename_i hnil
    rw [hnil, List.headD_nil, storeAll_nil, List.tail_nil, ← hnil]
  · rename_i stores later hcons
    rw [hcons, List.headD_cons, List.tail_cons]
    rfl

/-- `s` after `k` reads at ascending addresses from `a` on, one of the target program's turns before each (R46, R51). -/
def State.afterReads (s : State) (a : Addr) (k : Nat) : State :=
  { s with mem := targetMem s.mem (s.target.take k), target := s.target.drop k,
           trace := s.trace ++ List.zipWith Obs.memRead (spanAddrs a k) (turnReads s.mem s.target a k) }

theorem afterReads_zero (s : State) (a : Addr) : s.afterReads a 0 = s := by
  simp [State.afterReads, spanAddrs]

theorem afterReads_succ (s : State) (a : Addr) (k : Nat) : (s.afterReads a 1).afterReads (a + 1) k = s.afterReads a (k + 1) := by
  simp only [State.afterReads, targetMem_take_succ, List.take_zero, targetMem_nil, List.drop_one, List.drop_tail, turnReads,
    spanAddrs, List.zipWith_cons_cons, List.zipWith_nil_left, List.append_assoc, List.singleton_append]

theorem afterReads_one_mem (s : State) (a : Addr) : (s.afterReads a 1).mem = storeAll s.mem (s.target.headD []) := by
  simp only [State.afterReads, targetMem_take_succ, List.take_zero, targetMem_nil]

theorem afterReads_one_target (s : State) (a : Addr) : (s.afterReads a 1).target = s.target.tail := List.drop_one

theorem staged_cons (s : State) (n : Nat) (v : Byte) (vs : List Byte) :
    s.staged n (v :: vs) = (s.staged n [v]).staged (n + 1) vs := rfl

@[simp] theorem staged_mem (s : State) (n : Nat) (vs : List Byte) : (s.staged n vs).mem = s.mem := rfl
@[simp] theorem staged_target (s : State) (n : Nat) (vs : List Byte) : (s.staged n vs).target = s.target := rfl
@[simp] theorem staged_buf_length (s : State) (n : Nat) (vs : List Byte) :
    (s.staged n vs).tx.buf.length = s.tx.buf.length := putAll_length _ _ _

/-- Reads and staging touch different fields. -/
theorem staged_afterReads (s : State) (n : Nat) (vs : List Byte) (a : Addr) (k : Nat) :
    (s.staged n vs).afterReads a k = (s.afterReads a k).staged n vs := rfl

theorem memRead_eq_afterReads {s : State} {a : Addr} (h : s.cfg.serves a = true) :
    memRead a s = .done (Memory.read (s.afterReads a 1).mem a.toNat) (s.afterReads a 1) := by
  rw [memRead_served h, targetTurn_eq, afterReads_one_mem]
  simp only [State.afterReads, targetMem_take_succ, List.take_zero, targetMem_nil, List.drop_one]
  rfl

/-- The byte loop of R139 over served addresses. -/
theorem readBytes_served {k n : Nat} {a : Addr} {s : State} (hserved : servesAll s.cfg (spanAddrs a k))
    (hfit : 5 + n + k ≤ s.tx.buf.length) :
    readBytes k a n s = .done (n + k) ((s.afterReads a k).staged n (turnReads s.mem s.target a k)) := by
  induction k generalizing a n s with
  | zero => rw [afterReads_zero]; rfl
  | succ k ih =>
    obtain ⟨hfirst, hrest⟩ := List.forall_mem_cons.mp hserved
    have hstage := stage_eq_staged (s := s.afterReads a 1) (n := n) (Memory.read (s.afterReads a 1).mem a.toNat)
      (show _ < s.tx.buf.length by omega)
    have hloop := ih (a := a + 1) (n := n + 1)
      (s := (s.afterReads a 1).staged n [Memory.read (s.afterReads a 1).mem a.toNat]) hrest
      (by rw [staged_buf_length]; show _ ≤ s.tx.buf.length; omega)
    rw [readBytes, memRead_eq_afterReads hfirst, andThen_done, hstage, andThen_done, hloop, staged_afterReads, afterReads_succ,
      staged_mem, staged_target, afterReads_one_mem, afterReads_one_target, turnReads, Nat.add_assoc, Nat.add_comm 1]
    exact congrArg (Res.done _) (staged_cons _ _ _ _).symm

theorem readBytes_add (j k : Nat) (a : Addr) (n : Nat) (s : State) :
    readBytes (j + k) a n s = (readBytes j a n s).andThen fun m t => readBytes k (a + BitVec.ofNat 32 j) m t := by
  induction j generalizing a n s with
  | zero => simp [readBytes]
  | succ j ih => simp only [Nat.succ_add, readBytes, Res.andThen_assoc, ih, addr_succ_add]

/-- The byte loop halts at the first address that is not served, the reads before it standing (R49). -/
theorem readBytes_unmapped {j k n : Nat} {a : Addr} {s : State} (hserved : servesAll s.cfg (spanAddrs a j)) (hjk : j < k)
    (hfit : 5 + n + k ≤ s.tx.buf.length) (hhole : s.cfg.serves (a + BitVec.ofNat 32 j) = false) :
    readBytes k a n s =
      .halt (((s.afterReads a j).staged n (turnReads s.mem s.target a j)).raised .memUnmapped) := by
  obtain ⟨d, rfl⟩ := Nat.exists_eq_add_of_lt hjk
  have hread := memRead_unmapped (s := (s.afterReads a j).staged n (turnReads s.mem s.target a j)) hhole
  rw [Nat.add_assoc, readBytes_add, readBytes_served hserved (by omega), andThen_done, readBytes, hread, andThen_halt]

/-! ### READ.FULL and READ.BIT (R139 to R141) -/

/-- An aborted handler has sent the error response ERR_INVALID_SIZE. -/
theorem abort_outcome {α : Type} (seq : Byte) (s : State) :
    (abortInvalidSize seq s : Res (Option α)).outcome = (errorResponse .invalidSize seq s).outcome := by
  rw [abortInvalidSize]
  cases errorResponse .invalidSize seq s <;> rfl

section Idle

variable {s : State} (hr : Running s) (ht : s.tx.state = .idle)
include hr ht

theorem exec_readFull_of_idle (seq : Byte) (n : Nat) (a : Addr) (size : Half) (w : Byte) :
    exec (.readFull seq n a size w) s = (readFull seq a size n s).outcome :=
  whenRunning_requireIdle_of hr ht (readFull seq a size n)

theorem exec_readBit_of_idle (seq : Byte) (n : Nat) (a : Addr) (size : Half) (off w : Byte) :
    exec (.readBit seq n a size off w) s = (readBit seq a off w n s).outcome :=
  whenRunning_requireIdle_of hr ht (readBit seq a off w n)

theorem exec_read_of_idle (seq : Byte) (payload : List Byte) :
    exec (.read seq payload) s = (readHandler seq payload s).outcome :=
  whenRunning_requireIdle_of hr ht (readHandler seq payload)

end Idle

theorem readFull_over {s : State} {size : Half} {n : Nat} (h : s.cfg.maxPayload < n + size.toNat) (seq : Byte) (a : Addr) :
    readFull seq a size n s = abortInvalidSize seq s := if_pos h

theorem readFull_fits {s : State} {size : Half} {n : Nat} (h : n + size.toNat ≤ s.cfg.maxPayload) (seq : Byte) (a : Addr) :
    readFull seq a size n s = (readBytes size.toNat a n s).andThen fun n s => .done (some n) s := if_neg (Nat.not_lt.mpr h)

/-- `s` after showing the observations `os`. -/
def State.showing (s : State) (os : List Obs) : State := { s with trace := s.trace ++ os }

theorem showing_append (s : State) (os os' : List Obs) : s.showing (os ++ os') = (s.showing os).showing os' := by
  simp only [State.showing, List.append_assoc]

theorem showing_nil (s : State) : s.showing [] = s := by
  rw [State.showing, List.append_nil]

/-- With no turns of the target program to come, the reads see memory as it stands, and leave it so. -/
theorem afterReads_quiet {s : State} (h : s.target = []) (a : Addr) (k : Nat) :
    s.afterReads a k = s.showing ((spanAddrs a k).map fun b => .memRead b (Memory.read s.mem b.toNat)) := by
  rw [State.afterReads, h, List.take_nil, List.drop_nil, targetMem_nil, turnReads_quiet, List.zipWith_map_right,
    List.zipWith_self, ← h]
  rfl

/-- Settles O30: the byte loop over a served span, and its first hole. -/
theorem readFullStagesRawBytes : Obligations.ReadFullStagesRawBytes := by
  intro seq n a size w s hr hi ht
  have hcap : s.tx.buf.length = 7 + s.cfg.maxPayload := (hi.tx hr.inited).cap
  rw [exec_readFull_of_idle hr ht, exec_error_of_idle hr ht]
  refine ⟨fun hover => ?_, fun hfit hserved => ?_, fun j hfit hj hserved hhole => ?_⟩
  · rw [readFull_over hover, abort_outcome]
  · rw [readFull_fits hfit, readBytes_served hserved (by omega)]
    refine ⟨turnReads s.mem s.target a size.toNat, _, rfl, rfl, turnReads_length _ _ _ _, fun j hj => ?_, fun j hj => ?_,
      rfl, fun hquiet => ?_⟩
    · exact cell?_putAll_inside (by rw [turnReads_length]; show _ ≤ s.tx.buf.length; omega) (by rwa [turnReads_length])
    · exact cell?_putAll_outside _ (by rwa [turnReads_length])
    · rw [afterReads_quiet hquiet, hquiet, turnReads_quiet]
      exact ⟨rfl, rfl⟩
  · rw [readFull_fits hfit, readBytes_unmapped hserved hj (by omega) hhole]
    exact ⟨_, rfl, rfl, rfl, rfl, rfl⟩

/-- Settles O31: one read and one staged byte. -/
theorem readBitStagesField : Obligations.ReadBitStagesField := by
  intro seq n a size off w s hr hi ht
  have hcap : s.tx.buf.length = 7 + s.cfg.maxPayload := (hi.tx hr.inited).cap
  rw [exec_readBit_of_idle hr ht, exec_error_of_idle hr ht]
  refine ⟨fun hover => ?_, fun hfit hserved => ?_, fun hfit hhole => ?_⟩
  · rw [readBit, if_pos hover, abort_outcome]
  · have hstage := stage_eq_staged (s := s.afterReads a 1) (n := n)
      (extractField (Memory.read (s.afterReads a 1).mem a.toNat) off w) (show _ < s.tx.buf.length by omega)
    rw [readBit, if_neg (Nat.not_lt.mpr hfit), memRead_eq_afterReads hserved, andThen_done, hstage, afterReads_one_mem]
    refine ⟨_, _, rfl, rfl, congrArg (Memory.read · a.toNat) (afterReads_one_mem s a).symm, fun hquiet => ?_⟩
    rw [afterReads_quiet hquiet]
    exact ⟨rfl, hquiet⟩
  · rw [readBit, if_neg (Nat.not_lt.mpr hfit), memRead_unmapped hhole]
    rfl

/-- Settles O32: each of READ's three checks ends in the error response. -/
theorem readValidationErrors : Obligations.ReadValidationErrors := by
  intro seq payload s hr ht h
  rw [exec_read_of_idle hr ht, exec_error_of_idle hr ht]
  rcases h with rfl | ⟨count, rest, rfl, h⟩
  · rfl
  · rw [readHandler]
    split_ifs with hcount hlen
    · rfl
    · rfl
    · rw [not_or, BitVec.toNat_eq] at hcount
      rcases h with hzero | hmany | hshort
      · exact absurd hzero hcount.1
      · exact absurd hmany hcount.2
      · exact absurd hshort hlen

/-! ### READ of whole requests (R137, R138, R142) -/

/-- A block on which no other agent writes, with a transmit buffer of its capacity. -/
structure Quiet (s : State) : Prop where
  target : s.target = []
  cap    : s.tx.buf.length = 7 + s.cfg.maxPayload

theorem Quiet.staged {s : State} (h : Quiet s) (n : Nat) (vs : List Byte) : Quiet (s.staged n vs) :=
  ⟨h.target, (staged_buf_length s n vs).trans h.cap⟩

theorem Quiet.showing {s : State} (h : Quiet s) (os : List Obs) : Quiet (s.showing os) := ⟨h.target, h.cap⟩

theorem descValue_of_full {d : Desc} (h : descIsFull d = true) (m : Memory) :
    descValue m d = (spanAddrs d.addr d.size.toNat).map fun a => Memory.read m a.toNat := if_pos h

theorem descValue_of_bit {d : Desc} (h : descIsFull d = false) (m : Memory) :
    descValue m d = [extractField (Memory.read m d.addr.toNat) d.bitOffset d.bitSize] := if_neg (Bool.not_eq_true _ ▸ h)

theorem descAddrs_of_full {d : Desc} (h : descIsFull d = true) : descAddrs d = spanAddrs d.addr d.size.toNat := if_pos h

theorem descAddrs_of_bit {d : Desc} (h : descIsFull d = false) : descAddrs d = [d.addr] := if_neg (Bool.not_eq_true _ ▸ h)

/-- A descriptor that is served and fits is read and its value staged. -/
theorem readDesc_served {s : State} (hq : Quiet s) {d : Desc} {n : Nat} (hserved : servesAll s.cfg (descAddrs d))
    (hfit : n + (descValue s.mem d).length ≤ s.cfg.maxPayload) (seq : Byte) :
    readDesc seq d n s = .done (some (n + (descValue s.mem d).length))
      ((s.showing (descReads s.mem d)).staged n (descValue s.mem d)) := by
  have hcap := hq.cap
  rw [descReads]
  cases hfull : descIsFull d with
  | true =>
    rw [descValue_of_full hfull, List.length_map, spanAddrs_length] at hfit
    rw [descAddrs_of_full hfull] at hserved ⊢
    rw [readDesc, if_pos hfull, readFull_fits hfit, readBytes_served hserved (by omega), andThen_done,
      afterReads_quiet hq.target, hq.target, turnReads_quiet, descValue_of_full hfull, List.length_map, spanAddrs_length]
  | false =>
    rw [descValue_of_bit hfull, List.length_singleton] at hfit
    rw [descAddrs_of_bit hfull] at hserved ⊢
    have hfirst := (List.forall_mem_cons.mp hserved).1
    have hstage := stage_eq_staged (s := s.showing [.memRead d.addr (Memory.read s.mem d.addr.toNat)]) (n := n)
      (extractField (Memory.read s.mem d.addr.toNat) d.bitOffset d.bitSize) (show _ < s.tx.buf.length by omega)
    have hread : memRead d.addr s = .done (Memory.read s.mem d.addr.toNat)
        (s.showing [.memRead d.addr (Memory.read s.mem d.addr.toNat)]) := by
      rw [memRead_eq_afterReads hfirst, afterReads_quiet hq.target]
      rfl
    rw [readDesc, if_neg (by simp [hfull]), readBit, if_neg (Nat.not_lt.mpr hfit), hread, andThen_done, hstage, andThen_done,
      descValue_of_bit hfull]
    rfl

/-- A descriptor whose value does not fit is answered with the error before any read (R141, D20). -/
theorem readDesc_over {s : State} {d : Desc} {n : Nat} (h : s.cfg.maxPayload < n + (descValue s.mem d).length) (seq : Byte) :
    readDesc seq d n s = abortInvalidSize seq s := by
  cases hfull : descIsFull d with
  | true =>
    rw [descValue_of_full hfull, List.length_map, spanAddrs_length] at h
    rw [readDesc, if_pos hfull, readFull_over h]
  | false =>
    rw [descValue_of_bit hfull, List.length_singleton] at h
    rw [readDesc, if_neg (by simp [hfull]), readBit, if_pos h]

/-- The loop over descriptors that are served and fit goes on after them with their values staged, in array order. -/
theorem readLoop_served {s : State} (hq : Quiet s) {ds : List Desc} {n : Nat} (hserved : ∀ d ∈ ds, servesAll s.cfg (descAddrs d))
    (hfit : n + (ds.flatMap (descValue s.mem)).length ≤ s.cfg.maxPayload) (seq : Byte) (k : Nat) (rest : List Byte) :
    readLoop seq (ds.length + k) (ds.flatMap descBytes ++ rest) n s =
      readLoop seq k rest (n + (ds.flatMap (descValue s.mem)).length)
        ((s.showing (ds.flatMap (descReads s.mem))).staged n (ds.flatMap (descValue s.mem))) := by
  induction ds generalizing n s with
  | nil => rw [List.length_nil, Nat.zero_add, List.flatMap_nil, List.flatMap_nil, List.flatMap_nil, showing_nil]; rfl
  | cons d ds ih =>
    obtain ⟨hd, hds⟩ := List.forall_mem_cons.mp hserved
    rw [List.flatMap_cons, List.length_append] at hfit
    have hdesc := readDesc_served hq hd (n := n) (by omega) seq
    have hloop := ih ((hq.showing (descReads s.mem d)).staged n (descValue s.mem d)) hds
      (n := n + (descValue s.mem d).length) (by show _ + (ds.flatMap (descValue s.mem)).length ≤ s.cfg.maxPayload; omega)
    rw [List.length_cons, Nat.succ_add, List.flatMap_cons, List.append_assoc, readLoop, parseDesc_descBytes]
    simp only [hdesc, andThen_done, hloop, List.flatMap_cons, List.length_append, showing_append, staged_append, ← Nat.add_assoc]
    rfl

theorem flatMap_descBytes_length (ds : List Desc) : (ds.flatMap descBytes).length = 8 * ds.length := by
  rw [List.length_flatMap, List.map_congr_left fun d _ => descBytes_length d, List.map_const', List.sum_replicate, smul_eq_mul,
    Nat.mul_comm]

theorem count_valid {count : Byte} {m : Nat} (hpos : 1 ≤ count.toNat) (hmany : count.toNat ≤ m) :
    ¬(count = 0 ∨ m < count.toNat) := by
  rintro (rfl | h)
  · cases hpos
  · omega

/-- What READ does after its descriptor loop: nothing if the loop was aborted, the read response otherwise (R138, R142). -/
def finishRead (seq : Byte) (r : Option Nat) (s : State) : Res Unit :=
  match r with
  | none => .done () s
  | some n => readResponse seq n s

/-- A READ payload of as many descriptors as its count says, a count in range, goes to the descriptor loop (R137). -/
theorem readHandler_of_descs {s : State} (hq : Quiet s) {count : Byte} {ds : List Desc} (hcount : count.toNat = ds.length)
    (hpos : 1 ≤ ds.length) (hmany : ds.length ≤ s.cfg.maxVars) (trailing : List Byte) (seq : Byte) :
    readHandler seq (count :: (ds.flatMap descBytes ++ trailing)) s =
      (readLoop seq ds.length (ds.flatMap descBytes ++ trailing) 1 (s.staged 0 [count])).andThen (finishRead seq) := by
  have hvalid := count_valid (hcount ▸ hpos) (hcount ▸ hmany)
  have hlong : ¬(count :: (ds.flatMap descBytes ++ trailing)).length < 1 + 8 * count.toNat := by
    rw [List.length_cons, List.length_append, flatMap_descBytes_length, hcount]
    omega
  have hhandler : readHandler seq (count :: (ds.flatMap descBytes ++ trailing)) s = (stage 0 count s).andThen fun _ t =>
      (readLoop seq count.toNat (ds.flatMap descBytes ++ trailing) 1 t).andThen (finishRead seq) :=
    (if_neg hvalid).trans (if_neg hlong)
  rw [hhandler, stage_eq_staged count (by rw [hq.cap]; omega), andThen_done, hcount]

theorem count_toNat {p : Params} (hp : p.ok = true) {n : Nat} (h : n ≤ p.maxVars) : (BitVec.ofNat 8 n).toNat = n := by
  have := (ok_bounds hp).2.2.2
  rw [BitVec.toNat_ofNat]
  omega

theorem Running.quiet {s : State} (hr : Running s) (hi : s.Inv) (h : s.target = []) : Quiet s := ⟨h, (hi.tx hr.inited).cap⟩

/-- Settles O33: the loop over all descriptors, then the frame of what it staged. -/
theorem readAnswersValues : Obligations.ReadAnswersValues := by
  intro seq ds trailing s hr hi ht htarget hpos hmany hfit hserved
  have hq := hr.quiet hi htarget
  have hhandler := readHandler_of_descs hq (count_toNat hr.cfgOk hmany) hpos hmany trailing seq
  generalize BitVec.ofNat 8 ds.length = count at hhandler ⊢
  have hloop := readLoop_served (hq.staged 0 [count]) (n := 1) hserved hfit seq 0 trailing
  obtain ⟨t, hend, ha⟩ := encodeFrame_staged_answers (s := s.showing (ds.flatMap (descReads s.mem)))
    (vs := count :: ds.flatMap (descValue s.mem)) hq.cap (by rw [List.length_cons, Nat.add_comm]; exact hfit) .readResp seq
  refine exec_answers_of_idle hr ht (readHandler seq _) rfl ⟨(), t, ?_, ha⟩
  rw [Nat.add_zero, readLoop] at hloop
  rw [List.length_cons, Nat.add_comm] at hend
  rw [hhandler, hloop, andThen_done]
  exact hend

/-- Settles O34: the loop goes on to the descriptor that does not fit, which is aborted before its read. -/
theorem readOverCapacityAborts : Obligations.ReadOverCapacityAborts := by
  intro seq pre d post trailing s hr hi ht htarget hmany hfit hover hserved
  have hq := hr.quiet hi htarget
  have hlen : (pre ++ d :: post).length = pre.length + (post.length + 1) := by rw [List.length_append, List.length_cons]
  have hhandler := readHandler_of_descs hq (count_toNat hr.cfgOk hmany) (by omega) hmany trailing seq
  generalize BitVec.ofNat 8 (pre ++ d :: post).length = count at hhandler ⊢
  have hloop := readLoop_served (hq.staged 0 [count]) (n := 1) hserved hfit seq (post.length + 1)
    (descBytes d ++ (post.flatMap descBytes ++ trailing))
  obtain ⟨t, hend, ha⟩ := errorResponse_answers (s := ((s.staged 0 [count]).showing (pre.flatMap (descReads s.mem))).staged 1
    (pre.flatMap (descValue s.mem))) (((hq.staged _ _).showing _).staged _ _).cap (ok_bounds hr.cfgOk).1 .invalidSize seq
  have hdesc := readDesc_over (s := ((s.staged 0 [count]).showing (pre.flatMap (descReads s.mem))).staged 1
    (pre.flatMap (descValue s.mem))) hover seq
  refine exec_answers_of_idle hr ht (readHandler seq _) rfl ⟨(), t, ?_, ha⟩
  rw [staged_mem] at hloop
  rw [hhandler, hlen, List.flatMap_append, List.flatMap_cons, List.append_assoc, List.append_assoc, hloop, readLoop,
    parseDesc_descBytes]
  simp only [hdesc, abortInvalidSize, hend, andThen_done, finishRead]

end Sys2Proof.Machine

/-! PROOFS. WRITE, WRITE.FULL and WRITE.BIT (R145 to R151): the stores made and the answer; a variable written and read back. -/

namespace Sys2Proof.Machine

open Sys2Proof

/-! ### Writes at ascending addresses -/

/-- `s` after writing the bytes `vs` from `a` on, one of the target program's turns before each (R46, R51, R147). -/
def State.afterWrites (s : State) (a : Addr) (vs : List Byte) : State :=
  { s with mem := storeTurns s.mem s.target a vs, target := s.target.drop vs.length,
           trace := s.trace ++ List.zipWith Obs.memWrite (spanAddrs a vs.length) vs }

theorem afterWrites_nil (s : State) (a : Addr) : s.afterWrites a [] = s := by
  simp [State.afterWrites, storeTurns, spanAddrs]

theorem afterWrites_cons (s : State) (a : Addr) (v : Byte) (vs : List Byte) :
    (s.afterWrites a [v]).afterWrites (a + 1) vs = s.afterWrites a (v :: vs) := by
  simp [State.afterWrites, storeTurns, spanAddrs]

theorem memWrite_eq_afterWrites {s : State} {a : Addr} (v : Byte) (h : s.cfg.serves a = true) :
    memWrite a v s = .done () (s.afterWrites a [v]) := by
  rw [memWrite_served v h, targetTurn_eq]
  simp only [State.afterWrites, storeTurns, List.length_singleton, List.drop_one]
  rfl

/-- The byte loop of R147 over served addresses. -/
theorem writeBytes_served {vs : List Byte} {a : Addr} {s : State} (h : servesAll s.cfg (spanAddrs a vs.length)) :
    writeBytes a vs s = .done () (s.afterWrites a vs) := by
  induction vs generalizing a s with
  | nil => rw [afterWrites_nil]; rfl
  | cons v vs ih =>
    obtain ⟨hfirst, hrest⟩ := List.forall_mem_cons.mp h
    rw [writeBytes, memWrite_eq_afterWrites v hfirst, andThen_done, ih (s := s.afterWrites a [v]) hrest, afterWrites_cons]

theorem writeBytes_append (vs ws : List Byte) (a : Addr) (s : State) :
    writeBytes a (vs ++ ws) s = (writeBytes a vs s).andThen fun _ t => writeBytes (a + BitVec.ofNat 32 vs.length) ws t := by
  induction vs generalizing a s with
  | nil => simp [writeBytes]
  | cons v vs ih => simp only [List.cons_append, writeBytes, Res.andThen_assoc, ih, addr_succ_add, List.length_cons]

/-- The byte loop halts at the first address that is not served, the bytes before it written (R49). -/
theorem writeBytes_unmapped {vs : List Byte} {j : Nat} {a : Addr} {s : State} (hj : j < vs.length)
    (hserved : servesAll s.cfg (spanAddrs a j)) (hhole : s.cfg.serves (a + BitVec.ofNat 32 j) = false) :
    writeBytes a vs s = .halt ((s.afterWrites a (vs.take j)).raised .memUnmapped) := by
  have htake : (vs.take j).length = j := List.length_take_of_le (Nat.le_of_lt hj)
  have hfirst := writeBytes_served (vs := vs.take j) (a := a) (s := s) (by rwa [htake])
  have hwrite := memWrite_unmapped (s := s.afterWrites a (vs.take j)) vs[j] hhole
  have happend := writeBytes_append (vs.take j) (vs.drop j) a s
  rw [List.take_append_drop] at happend
  rw [happend, hfirst, andThen_done, htake, List.drop_eq_getElem_cons hj, writeBytes, hwrite, andThen_halt]

theorem zipWith_take_length {α β γ : Type} (f : α → β → γ) (l : List α) (r : List β) :
    List.zipWith f l (r.take l.length) = List.zipWith f l r := by
  have h := List.take_zipWith (f := f) (l := l) (l' := r) (i := l.length)
  rwa [List.take_length, List.take_of_length_le (by rw [List.length_zipWith]; omega), eq_comm] at h

/-! ### WRITE.FULL and WRITE.BIT (R147 to R149) -/

section Idle

variable {s : State} (hr : Running s) (ht : s.tx.state = .idle)
include hr ht

theorem exec_writeFull_of_idle (seq : Byte) (a : Addr) (size : Half) (w : Byte) (rest : List Byte) :
    exec (.writeFull seq a size w rest) s = (writeFull seq a size rest s).outcome :=
  whenRunning_requireIdle_of hr ht (writeFull seq a size rest)

theorem exec_writeBit_of_idle (seq : Byte) (a : Addr) (size : Half) (off w : Byte) (rest : List Byte) :
    exec (.writeBit seq a size off w rest) s = (writeBit seq a off w rest s).outcome :=
  whenRunning_requireIdle_of hr ht (writeBit seq a off w rest)

theorem exec_write_of_idle (seq : Byte) (payload : List Byte) :
    exec (.write seq payload) s = (writeHandler seq payload s).outcome :=
  whenRunning_requireIdle_of hr ht (writeHandler seq payload)

end Idle

theorem writeFull_short {size : Half} {rest : List Byte} (h : rest.length < size.toNat) (seq : Byte) (a : Addr) (s : State) :
    writeFull seq a size rest s = abortInvalidSize seq s := if_pos h

theorem writeFull_enough {size : Half} {rest : List Byte} (h : size.toNat ≤ rest.length) (seq : Byte) (a : Addr) (s : State) :
    writeFull seq a size rest s =
      (writeBytes a (rest.take size.toNat) s).andThen fun _ s => .done (some (rest.drop size.toNat)) s :=
  if_neg (Nat.not_lt.mpr h)

/-- The writes of the first `k` bytes of `rest`, written out. -/
theorem afterWrites_take {s : State} {rest : List Byte} {k : Nat} (hk : k ≤ rest.length) (a : Addr) :
    s.afterWrites a (rest.take k) =
      { s with mem := storeTurns s.mem s.target a (rest.take k), target := s.target.drop k,
               trace := s.trace ++ List.zipWith Obs.memWrite (spanAddrs a k) rest } := by
  have hzip := zipWith_take_length Obs.memWrite (spanAddrs a k) rest
  rw [spanAddrs_length] at hzip
  rw [State.afterWrites, List.length_take_of_le hk, hzip]

/-- Settles O37: the byte loop over a served span, and its first hole. -/
theorem writeFullStoresVerbatim : Obligations.WriteFullStoresVerbatim := by
  intro seq a size w rest s hr ht
  rw [exec_writeFull_of_idle hr ht, exec_error_of_idle hr ht]
  refine ⟨fun hshort => ?_, fun hlen hserved => ?_, fun j hlen hj hserved hhole => ?_⟩
  · rw [writeFull_short hshort, abort_outcome]
  · have htake : (rest.take size.toNat).length = size.toNat := List.length_take_of_le hlen
    rw [writeFull_enough hlen, writeBytes_served (by rwa [htake]), afterWrites_take hlen]
    exact ⟨_, rfl, rfl, fun hquiet => by rw [hquiet, storeTurns_quiet]⟩
  · have htake : (rest.take size.toNat).length = size.toNat := List.length_take_of_le hlen
    rw [writeFull_enough hlen, writeBytes_unmapped (by rwa [htake]) hserved hhole, List.take_take,
      Nat.min_eq_left (Nat.le_of_lt hj), afterWrites_take (by omega)]
    exact ⟨_, rfl, rfl, fun hquiet => by rw [hquiet]; exact storeTurns_quiet _ _ _⟩

/-- One read and one write at the same address: two of the target program's turns pass (R47). -/
theorem afterReads_afterWrites (s : State) (a : Addr) (v : Byte) :
    (s.afterReads a 1).afterWrites a [v] =
      { s with mem := Memory.write (targetMem s.mem (s.target.take 2)) a.toNat v, target := s.target.drop 2,
               trace := s.trace ++ [.memRead a (Memory.read (targetMem s.mem (s.target.take 1)) a.toNat), .memWrite a v] } := by
  simp [State.afterWrites, State.afterReads, storeTurns, spanAddrs, turnReads, targetMem_take_succ]

/-- Settles O38: one read and one write at the same address. -/
theorem writeBitReadsModifiesWrites : Obligations.WriteBitReadsModifiesWrites := by
  intro seq a size off w s hr ht
  simp only [exec_writeBit_of_idle hr ht, exec_error_of_idle hr ht]
  refine ⟨by rw [writeBit, abort_outcome], fun v rest hserved => ?_, fun v rest hhole => ?_⟩
  · have hmem : (s.afterReads a 1).mem = targetMem s.mem (s.target.take 1) := rfl
    have hwrite := memWrite_eq_afterWrites (s := s.afterReads a 1) (a := a)
      (insertField (Memory.read (targetMem s.mem (s.target.take 1)) a.toNat) v off w) hserved
    rw [writeBit, memRead_eq_afterReads hserved, andThen_done, hmem, hwrite, andThen_done, outcome_done,
      afterReads_afterWrites]
    refine ⟨_, _, rfl, rfl, rfl, fun hi => ?_, fun hquiet => ?_⟩
    · exact read_write_same (targetMem_wf hi.mem _) a.toNat _
    · rw [hquiet]
      exact ⟨rfl, rfl⟩
  · rw [writeBit, memRead_unmapped hhole]
    rfl

/-- Settles O39: both of WRITE's checks end in the error response. -/
theorem writeValidationErrors : Obligations.WriteValidationErrors := by
  intro seq payload s hr ht h
  rw [exec_write_of_idle hr ht, exec_error_of_idle hr ht]
  rcases h with rfl | ⟨count, rest, rfl, h⟩
  · rfl
  · have hcount : count = 0 ∨ s.cfg.maxVars < count.toNat := h.imp_left fun hzero => BitVec.eq_of_toNat_eq hzero
    rw [writeHandler, if_pos hcount]

/-! ### WRITE of whole requests (R145, R149, R150) -/

/-- `s` after the WRITE elements `es`, with their accesses shown (R145). -/
def State.storing (s : State) (es : List WriteElem) : State :=
  { s with mem := storeElems s.mem es, trace := s.trace ++ storeEvents s.mem es }

theorem storing_nil (s : State) : s.storing [] = s := by
  simp [State.storing, storeElems, storeEvents]

theorem storing_cons (s : State) (e : WriteElem) (es : List WriteElem) :
    s.storing (e :: es) = (s.storing [e]).storing es := by
  simp [State.storing, storeElems, storeEvents]

theorem whole_length {e : WriteElem} (h : e.whole = true) : e.data.length = descDataLen e.desc := of_decide_eq_true h

/-- A whole element that is served is applied, and the payload after it goes on. -/
theorem writeElem_served {s : State} (hquiet : s.target = []) {e : WriteElem} (hwhole : e.whole = true)
    (hserved : servesAll s.cfg (descAddrs e.desc)) (seq : Byte) (rest : List Byte) :
    writeElem seq e.desc (e.data ++ rest) s = .done (some rest) (s.storing [e]) := by
  have hlen := whole_length hwhole
  cases hfull : descIsFull e.desc with
  | true =>
    rw [descDataLen, if_pos hfull] at hlen
    rw [descAddrs_of_full hfull] at hserved
    have hstate : s.afterWrites e.desc.addr e.data = s.storing [e] := by
      rw [State.afterWrites, hquiet, storeTurns_quiet, List.drop_nil, hlen, ← hquiet]
      simp [State.storing, storeElems, storeEvents, elemStore, elemEvents, hfull]
    rw [writeElem, if_pos hfull, writeFull_enough (by rw [List.length_append]; omega), ← hlen, List.take_left, List.drop_left,
      writeBytes_served (by rwa [hlen]), andThen_done, hstate]
  | false =>
    rw [descDataLen, if_neg (by simp [hfull])] at hlen
    rw [descAddrs_of_bit hfull] at hserved
    obtain ⟨v, hv⟩ := List.length_eq_one_iff.mp hlen
    have hfirst := (List.forall_mem_cons.mp hserved).1
    have hmem : (s.afterReads e.desc.addr 1).mem = s.mem := by rw [afterReads_quiet hquiet]; rfl
    have hwrite := memWrite_eq_afterWrites (s := s.afterReads e.desc.addr 1) (a := e.desc.addr)
      (insertField (Memory.read s.mem e.desc.addr.toNat) v e.desc.bitOffset e.desc.bitSize) hfirst
    have hstate : (s.afterReads e.desc.addr 1).afterWrites e.desc.addr
        [insertField (Memory.read s.mem e.desc.addr.toNat) v e.desc.bitOffset e.desc.bitSize] = s.storing [e] := by
      rw [afterReads_afterWrites, hquiet, List.take_nil, List.take_nil, targetMem_nil, List.drop_nil, ← hquiet]
      simp [State.storing, storeElems, storeEvents, elemStore, elemEvents, hfull, hv]
    rw [writeElem, if_neg (by simp [hfull]), hv, List.singleton_append, writeBit, memRead_eq_afterReads hfirst, andThen_done,
      hmem, hwrite, andThen_done, hstate]

/-- The walk over whole, served elements goes on after them with all of them applied, left to right. -/
theorem writeLoop_served {s : State} (hquiet : s.target = []) {es : List WriteElem}
    (hes : ∀ e ∈ es, e.whole = true ∧ servesAll s.cfg (descAddrs e.desc)) (seq : Byte) (k : Nat) (rest : List Byte) :
    writeLoop seq (es.length + k) (es.flatMap WriteElem.bytes ++ rest) s = writeLoop seq k rest (s.storing es) := by
  induction es generalizing s with
  | nil => rw [storing_nil, List.length_nil, Nat.zero_add]; rfl
  | cons e es ih =>
    obtain ⟨⟨hwhole, hserved⟩, hrest⟩ := List.forall_mem_cons.mp hes
    have helem := writeElem_served hquiet hwhole hserved seq (es.flatMap WriteElem.bytes ++ rest)
    have hloop := ih (s := s.storing [e]) hquiet hrest
    rw [List.length_cons, Nat.succ_add, List.flatMap_cons, WriteElem.bytes, List.append_assoc, List.append_assoc, writeLoop,
      parseDesc_descBytes, storing_cons, ← hloop]
    simp only [helem, andThen_done]

/-- An element with too little data is answered with the error before any access (R147, R148). -/
theorem writeElem_short {d : Desc} {rest : List Byte} (h : rest.length < descDataLen d) (seq : Byte) (s : State) :
    writeElem seq d rest s = abortInvalidSize seq s := by
  cases hfull : descIsFull d with
  | true =>
    rw [descDataLen, if_pos hfull] at h
    rw [writeElem, if_pos hfull, writeFull_short h]
  | false =>
    have hnot : ¬descIsFull d = true := by simp [hfull]
    rw [descDataLen, if_neg hnot, Nat.lt_one_iff, List.length_eq_zero_iff] at h
    rw [writeElem, if_neg hnot, h, writeBit]

/-- Nothing follows in a handler that was aborted. -/
theorem abort_andThen {α β : Type} (seq : Byte) (s : State) (k : Option α → State → Res (Option β))
    (hk : ∀ t, k none t = .done none t) : (abortInvalidSize seq s).andThen k = abortInvalidSize seq s := by
  rw [abortInvalidSize, Res.andThen_assoc]
  simp only [andThen_done, hk]
  rfl

/-- A payload that is short of its next element is answered with the error, and nothing of that element is applied. -/
theorem writeLoop_short {rest : List Byte} (h : shortOfElem rest) (seq : Byte) (k : Nat) (s : State) :
    writeLoop seq (k + 1) rest s = abortInvalidSize seq s := by
  unfold shortOfElem at h
  rw [writeLoop]
  cases hparse : parseDesc rest with
  | none => rfl
  | some dr =>
    rw [hparse] at h
    simp only [writeElem_short h]
    exact abort_andThen seq s _ fun _ => rfl

theorem writeHandler_valid {s : State} {count : Byte} (hpos : 1 ≤ count.toNat) (hmany : count.toNat ≤ s.cfg.maxVars) (seq : Byte)
    (rest : List Byte) : writeHandler seq (count :: rest) s = (writeLoop seq count.toNat rest s).andThen fun r s =>
      match r with
      | none => .done () s
      | some _ => writeResponse seq s :=
  if_neg (count_valid hpos hmany)

/-- Settles O40: the walk over all elements, then the write response. -/
theorem writeAppliesElements : Obligations.WriteAppliesElements := by
  intro seq es trailing s hr hi ht hquiet hpos hmany hes
  have hcount := count_toNat hr.cfgOk hmany
  have hloop := writeLoop_served hquiet hes seq 0 trailing
  obtain ⟨t, hend, ha⟩ := writeResponse_answers (s := s.storing es) (hi.tx hr.inited).cap (ok_bounds hr.cfgOk).1 seq
  refine exec_answers_of_idle hr ht (writeHandler seq _) rfl ⟨(), t, ?_, ha⟩
  rw [Nat.add_zero, writeLoop] at hloop
  rw [writeHandler_valid (by omega) (by omega), hcount, hloop, andThen_done]
  exact hend

/-- Settles O41: the walk over the whole elements, then the abort at the one that falls short. -/
theorem shortWriteIsNotRolledBack : Obligations.ShortWriteIsNotRolledBack := by
  intro seq count es short s hr hi ht hquiet hless hmany hes hshort
  obtain ⟨k, hk⟩ := Nat.exists_eq_add_of_lt hless
  have hloop := (writeLoop_served hquiet hes seq (k + 1) short).trans (writeLoop_short hshort seq k (s.storing es))
  obtain ⟨t, hend, -⟩ := errorResponse_answers (s := s.storing es) (hi.tx hr.inited).cap (ok_bounds hr.cfgOk).1 .invalidSize seq
  have herror := exec_error_of_idle (s := s.storing es) ⟨hr.noFault, hr.cfgOk, hr.inited⟩ ht .invalidSize seq
  refine ⟨t, ?_, by rw [hend] at herror; exact herror⟩
  rw [exec_write_of_idle hr ht, writeHandler_valid (by omega) hmany, hk, Nat.add_assoc, hloop]
  simp only [abortInvalidSize, hend, andThen_done, outcome_done]

/-! ### A variable written and read back (R143 (e)) -/

theorem descValue_length (m : Memory) (d : Desc) : (descValue m d).length = descDataLen d := by
  unfold descValue descDataLen
  split_ifs
  · rw [List.length_map, spanAddrs_length]
  · rfl

/-- A full variable reads as the bytes written. -/
theorem descValue_elemStore_full {m : Memory} (hm : Memory.wf m = true) {d : Desc} (hfull : descIsFull d = true)
    {data : List Byte} (hlen : data.length = descDataLen d) : descValue (elemStore m d data) d = data := by
  rw [descDataLen, if_pos hfull] at hlen
  have hlt := d.size.isLt
  have hstore : elemStore m d data = storeBytes m d.addr data := if_pos hfull
  rw [descValue_of_full hfull, hstore, ← hlen, map_read_storeBytes hm d.addr (by omega)]

/-- A bitfield reads as the data byte cut to the bits of its field that lie in the byte (D18). -/
theorem descValue_elemStore_bit {m : Memory} (hm : Memory.wf m = true) {d : Desc} (hbit : descIsFull d = false)
    {data : List Byte} (hlen : data.length = descDataLen d) :
    ∃ x y : Byte, data = [x] ∧ descValue (elemStore m d data) d = [y] ∧ ∀ i, i < 8 →
      y.getLsbD i = (decide (i < d.bitSize.toNat) && decide (d.bitOffset.toNat + i < 8) && x.getLsbD i) := by
  have hnot : ¬descIsFull d = true := by simp [hbit]
  rw [descDataLen, if_neg hnot] at hlen
  obtain ⟨x, rfl⟩ := List.length_eq_one_iff.mp hlen
  have hstore : elemStore m d [x] = Memory.write m d.addr.toNat
      (insertField (Memory.read m d.addr.toNat) x d.bitOffset d.bitSize) := if_neg hnot
  refine ⟨x, _, rfl, descValue_of_bit hbit _, fun i hi => ?_⟩
  rw [hstore, read_write_same hm, extractField_bit _ _ _ hi]
  by_cases hw : i < d.bitSize.toNat
  · by_cases hbyte : d.bitOffset.toNat + i < 8
    · rw [insertField_bit _ _ _ _ hbyte, if_pos ⟨Nat.le_add_right _ _, Nat.add_lt_add_left hw _⟩, Nat.add_sub_cancel_left]
      simp [hw, hbyte]
    · simp [hbyte, BitVec.getLsbD_of_ge _ _ (Nat.not_lt.mp hbyte)]
  · simp [hw]

/-- A context whose frame has gone out meets the invariant. -/
theorem TxInv.toIdle {p : Params} {t : TxCtx} (h : TxInv p t) (i : Nat) : TxInv p { t with state := .idle, idx := i } :=
  ⟨h.cap, h.len, nofun, nofun⟩

/-- From an answer, one slot less than the frame's length brings the block back to Idle, and changes nothing but the context
and the output (R169). -/
theorem slots_of_answers {s t : State} {c : RespCode} {seq : Byte} {payload : List Byte} (hr : Running s) (ht : t.Inv)
    (ha : Answers s t c seq payload) :
    ∃ u, slots (6 + payload.length) t = .next u ∧ Running u ∧ u.Inv ∧ u.tx.state = .idle ∧ u.mem = s.mem ∧
      u.target = s.target ∧ u.cfg = s.cfg := by
  have hlen : (frameBytes s.cfg (s.cfg.respByte c) seq payload).length = 7 + payload.length := frameBytes_length _ _ _ _
  obtain ⟨buf, hstate, hspan⟩ := ha
  have htx : t.tx = ⟨.sending, buf, 7 + payload.length, 1⟩ := by rw [hstate]
  have hrt : Running t := by rw [hstate]; exact ⟨hr.noFault, hr.cfgOk, hr.inited⟩
  obtain ⟨-, u, hslots, -, -, hu⟩ := stagedFrameGoesOutInOrder t (frameBytes s.cfg (s.cfg.respByte c) seq payload) hrt
    (by rw [htx]) (by rw [htx]) (by rw [htx, hlen]) (by omega) (by rw [htx, hlen, hspan])
  rw [hlen, show 7 + payload.length - 1 = 6 + payload.length by omega] at hslots
  refine ⟨u, hslots, ?_⟩
  rw [hu]
  exact ⟨⟨hrt.noFault, hrt.cfgOk, hrt.inited⟩, ⟨ht.mem, ht.rx, fun hinit => (ht.tx hinit).toIdle _⟩, rfl, by rw [hstate],
    by rw [hstate], by rw [hstate]⟩

/-- Settles O44: the element's store, the seven slots of the write response, and the read of the memory that the store left. -/
theorem writeThenReadRoundTrips : Obligations.WriteThenReadRoundTrips := by
  intro seq seq' d data s hr hi ht hquiet hlen hfit hserved
  have hvars := (ok_bounds hr.cfgOk).2.2.1
  have hwhole : (⟨d, data⟩ : WriteElem).whole = true := decide_eq_true hlen
  obtain ⟨t, hwrite, hta⟩ := writeAppliesElements seq [⟨d, data⟩] [] s hr hi ht hquiet le_rfl hvars fun e he => by
    rw [List.mem_singleton.mp he]
    exact ⟨hwhole, hserved⟩
  obtain ⟨u, hslots, hru, hiu, htu, hmem, htarget, hcfg⟩ := slots_of_answers (s := s.storing [⟨d, data⟩])
    ⟨hr.noFault, hr.cfgOk, hr.inited⟩ (exec_inv hi hwrite) hta
  have hvalue : [d].flatMap (descValue u.mem) = descValue (elemStore s.mem d data) d := by
    rw [hmem, List.flatMap_singleton]
    rfl
  have hsize : (descValue (elemStore s.mem d data) d).length = data.length := by rw [descValue_length, hlen]
  obtain ⟨v, hread, buf, rfl, hspan⟩ := readAnswersValues seq' [d] [] u hru hiu htu (htarget.trans hquiet) le_rfl
    (by rw [hcfg]; exact hvars) (by rw [hvalue, hsize, hcfg]; exact hfit) fun e he => by
      rw [List.mem_singleton.mp he, hcfg]
      exact hserved
  rw [hvalue, List.length_cons, hsize] at hspan
  rw [List.append_nil, List.flatMap_singleton] at hread hwrite
  have hframe : 7 + (data.length + 1) = 8 + data.length := by omega
  refine ⟨t, u, _, descValue (elemStore s.mem d data) d, hwrite, hslots, hread, rfl, ?_, ?_, ?_, ?_⟩
  · rw [hvalue, List.length_cons, hsize, hframe]
  · rw [← hframe, hspan]
    exact congrArg (fun p : Params => some (frameBytes p p.cmdReadResp seq' _)) hcfg
  · exact fun hfull => descValue_elemStore_full hi.mem hfull hlen
  · exact fun hbit => descValue_elemStore_bit hi.mem hbit hlen

end Sys2Proof.Machine
